-- ==== Sys2Proof/Word.lean ====
section
/-! DEFINITION. Word types of the WS281x decoder block.

Sample indices, the sample rate and all arithmetic are over unbounded naturals and integers (R6, R48), so they are
plain `Nat` and `Int` (log 12); bit vectors hold only what the spec gives a width: bytes, pixel words, codes. -/

namespace Sys2Proof

/-- A BA payload byte (R5: "a BA payload is one byte of 8 bits"). -/
abbrev Byte := BitVec 8

/-- A 24-bit word: the wire word `grb`, the pixel value `rgb`, the data of a record (R5, R37, R50). -/
abbrev Word24 := BitVec 24

end Sys2Proof
end

