-- ==== Sys2Proof/Config.lean ====
section
/-! DEFINITION. What an implementation of the block fixes: the constants of R4 and R5, the port widths, and the one
free value. `HAS_BA` is not here: it is OPEN in the spec, so State holds it and statements cover both values. -/

namespace Sys2Proof.Config

/-- R4: the RESET minimum gap in microseconds. -/
def resetGapUs : Nat := 50

/-- Microseconds in a second (R90: 50 µs is the rational 50/10^6 s). -/
def usPerSec : Nat := 1000000

/-- R4: the bit-1 high-time threshold in nanoseconds. -/
def bit1HighNs : Nat := 625

/-- Nanoseconds in a second (R90: 625 ns is the rational 625/10^9 s). -/
def nsPerSec : Nat := 1000000000

/-- R4: numerator of the duty-cycle threshold 1/2. -/
def dutyNum : Nat := 1

/-- R4: denominator of the duty-cycle threshold 1/2. -/
def dutyDen : Nat := 2

/-- R5: the accumulator capacity, ACC_BITS. -/
def accBits : Nat := 24

/-- R5: the BA group size, GROUP_BYTES. -/
def groupBytes : Nat := 3

/-- The width IDX_W of an index field of a bundle: the spec's hardware default (00_scope.md section 4).
DESIGN CHOICE (log 5, unsafe for a realisation of another width): only the ports have this width, no meaning reads it. -/
abbrev idxW : Nat := 64

/-- The width RATE_W of the field `cmd_rate`: the spec's hardware default (00_scope.md section 4).
DESIGN CHOICE (log 5, unsafe for a realisation of another width): only the port has this width, no meaning reads it. -/
abbrev rateW : Nat := 64

/-- FREE VALUE (log 8): what a read of an optional register whose valid flag is 0 gives (R12: "the value is then
unspecified"), for the `n`-th record of a stream. It has no body, so nothing can be proved of a value of it. -/
opaque freeIndex : Nat → Nat

end Sys2Proof.Config
end

