-- ==== Sys2Proof/Syntax.lean ====
section
/-! DEFINITION. The five operations of the block (R46), the two units, and the command bundle (R45). -/

namespace Sys2Proof

/-- The two units of the block (R1, R10). -/
inductive DecoderUnit where
  /-- the Edge-Timing Decoder -/
  | etd
  /-- the optional Byte-Assembler -/
  | ba
  deriving DecidableEq, Repr

/-- The operations of the block, one constructor per row of the opcode table (R46). Index and rate operands are
natural numbers (R48); a level is `true` when high and `false` when low. -/
inductive Instr where
  /-- INIT: begin an ETD session (R66). -/
  | init
  /-- SETRATE: set the sample rate in hertz, 0 meaning "not set" (R67). -/
  | setrate (rate : Nat)
  /-- SAMPLE: consume one sample (R75). -/
  | sample (idx : Nat) (lvl : Bool)
  /-- BAINIT: begin a BA session (R105). -/
  | bainit
  /-- TXN: consume one transaction (R106); `stop` is the spec's `end`. -/
  | txn (start stop : Nat) (isData : Bool) (byte byte2 : Byte)
  deriving DecidableEq, Repr

/-- The unit an operation is presented to (R8, R46). -/
def Instr.unit : Instr → DecoderUnit
  | .init => .etd
  | .setrate _ => .etd
  | .sample _ _ => .etd
  | .bainit => .ba
  | .txn _ _ _ _ _ => .ba

/-- The command bundle: parallel fields, not a packed word (R45). -/
structure Bundle where
  /-- `cmd_op` -/
  op : BitVec 3
  /-- `cmd_idx` -/
  idx : BitVec Config.idxW
  /-- `cmd_end` -/
  endIdx : BitVec Config.idxW
  /-- `cmd_lvl` -/
  lvl : Bool
  /-- `cmd_rate` -/
  rate : BitVec Config.rateW
  /-- `cmd_isdata` -/
  isData : Bool
  /-- `cmd_byte` -/
  byte : Byte
  /-- `cmd_byte2` -/
  byte2 : Byte
  deriving DecidableEq, Repr

/-- The bundle with the operation code `op` and every other field 0. -/
def Bundle.ofOp (op : BitVec 3) : Bundle :=
  { op := op, idx := 0, endIdx := 0, lvl := false, rate := 0, isData := false, byte := 0, byte2 := 0 }

end Sys2Proof
end

