-- ==== Sys2Proof/WellFormed.lean ====
section
/-! DEFINITION. Which operations a bundle can carry: every index below 2^IDX_W (R48, R159: the host's duty) and
the rate below 2^RATE_W (R19). Every other operand value is legal (R57). -/

namespace Sys2Proof

/-- An index fits its field of the bundle (R48, R145). -/
def fitsIndex (n : Nat) : Bool := decide (n < 2 ^ Config.idxW)

/-- A rate fits the field `cmd_rate` (R19). -/
def fitsRate (n : Nat) : Bool := decide (n < 2 ^ Config.rateW)

/-- The operation can be presented as a bundle. -/
def Instr.wellFormed : Instr → Bool
  | .init => true
  | .setrate rate => fitsRate rate
  | .sample idx _ => fitsIndex idx
  | .bainit => true
  | .txn start stop _ _ _ => fitsIndex start && fitsIndex stop

end Sys2Proof
end

