-- ==== Sys2Proof/Decode.lean ====
section
/-! DEFINITION. The decoder of the command bundle (R46, R47), total, rejecting reserved codes by name (R56), and
the encoder, both from the table of R46. -/

namespace Sys2Proof

/-- Why a bundle does not decode. -/
inductive DecodeError where
  /-- `cmd_op` is none of the five codes of R46 (R56). -/
  | reservedCode (op : BitVec 3)
  deriving DecidableEq, Repr

/-- R46: match `cmd_op` against the five codes with mask 0b111; every other value is reserved. Every operand is one
whole field of the bundle, read as an unsigned number (R47); a field not listed for an operation is ignored (R45). -/
def decode (b : Bundle) : Except DecodeError Instr :=
  match b.op with
  | 0b000#3 => .ok .init
  | 0b001#3 => .ok (.setrate b.rate.toNat)
  | 0b010#3 => .ok (.sample b.idx.toNat b.lvl)
  | 0b100#3 => .ok .bainit
  | 0b101#3 => .ok (.txn b.idx.toNat b.endIdx.toNat b.isData b.byte b.byte2)
  | op => .error (.reservedCode op)

/-- The operation code of an operation (R46). -/
def Instr.opcode : Instr → BitVec 3
  | .init => 0b000#3
  | .setrate _ => 0b001#3
  | .sample _ _ => 0b010#3
  | .bainit => 0b100#3
  | .txn _ _ _ _ _ => 0b101#3

/-- The bundle that presents an operation (R45, R46); the fields the operation does not use are 0. -/
def encode (i : Instr) : Bundle :=
  match i with
  | .init => Bundle.ofOp 0b000#3
  | .setrate rate => { Bundle.ofOp 0b001#3 with rate := BitVec.ofNat Config.rateW rate }
  | .sample idx lvl => { Bundle.ofOp 0b010#3 with idx := BitVec.ofNat Config.idxW idx, lvl := lvl }
  | .bainit => Bundle.ofOp 0b100#3
  | .txn start stop isData byte byte2 =>
    { Bundle.ofOp 0b101#3 with
      idx := BitVec.ofNat Config.idxW start, endIdx := BitVec.ofNat Config.idxW stop,
      isData := isData, byte := byte, byte2 := byte2 }

/-- The bundle of a word of the opcode table. The table numbers bits of `cmd_op` alone (30_encoding.md: "`match` and
`mask` apply to the 3-bit field `cmd_op` alone"), so bits 2..0 of the word are `cmd_op` and every operand field is 0;
the table word's bits above them belong to no field (log 11). -/
def Bundle.ofTableWord (nbits w : Nat) : Bundle :=
  Bundle.ofOp (BitVec.ofNat 3 (w % 2 ^ nbits))

/-- What the decoder reads from a word of the opcode table. -/
def decodeTableWord (nbits w : Nat) : Option Instr :=
  match decode (Bundle.ofTableWord nbits w) with
  | .ok i => some i
  | .error _ => none

end Sys2Proof
end

