-- ==== Sys2Proof/Machine/State.lean ====
section
/-! DEFINITION. The state of the block and of its interface, as plain data.

Registers: 10_state.md R11 to R25. An optional register (R12) is an `Option`: its valid flag is `isSome`, and its
value does not exist while the flag is 0, since R12 leaves it unspecified and no rule reads it (log 7). -/

namespace Sys2Proof.Machine

/-- Record kinds (R51). -/
inductive RecKind where
  | bit
  | reset
  | rgb
  deriving DecidableEq, Repr

/-- One record of an output stream (R50); `stop` is the spec's end index. -/
structure Record where
  kind  : RecKind
  start : Nat
  stop  : Nat
  data  : Word24
  deriving DecidableEq, Repr

/-- What the host does to the block next: it presents a bundle (R30, R45) or signals a power-on reset (R140). -/
inductive HostItem where
  | cmd (b : Bundle)
  | powerOn
  deriving DecidableEq, Repr

/-- The state. ETD registers, then BA registers, then the build parameter, the two output streams, what the host has
still to present, and the host's own note of the last index it presented. -/
structure State where
  /-- `SAMPLERATE` in hertz; 0 means not set (R19). -/
  samplerate : Nat
  /-- `FAULT`, the 2-bit fault latch; 0 none, 1 CFG, 2 NOBITSTART, 3 never written (R22). -/
  fault      : BitVec 2
  /-- `prev_valid` and `prev_level` (R13): the level of the previous sample; `none` while `prev_valid = 0`. -/
  prev       : Option Bool
  /-- `acc`: the bits received for the current pixel, first received first (R14). -/
  acc        : List Bool
  /-- `pkt_idx`: start index of the pixel being accumulated (R15). -/
  pktIdx     : Option Nat
  /-- `rise_idx`: index of the last rising edge, the start of the pending bit (R16). -/
  riseIdx    : Option Nat
  /-- `fall_idx`: index of the last falling edge, the end of the pending high pulse (R17). -/
  fallIdx    : Option Nat
  /-- `in_reset`: a RESET record was emitted for the current low period (R18). -/
  inReset    : Bool
  /-- `ba_buf`: the BA's byte buffer, first received first (R24). -/
  baBuf      : List Byte
  /-- `ba_grp_start`: start boundary of the current group (R25). -/
  baGrpStart : Option Nat
  /-- `HAS_BA`: the Byte-Assembler is present (00_scope.md section 4). No step writes it (log 4). -/
  hasBA      : Bool
  /-- The ETD's output stream, oldest record first (R31). -/
  etdOut     : List Record
  /-- The BA's output stream, oldest record first (R31). -/
  baOut      : List Record
  /-- What the host has still to do, next first (R30; log 2). -/
  input      : List HostItem
  /-- The model's OWN field, on the host's side: the index of the last SAMPLE presented in this ETD session. The
  block keeps no such register (R29, R147); only the check of the input's order reads it (log 6). -/
  lastIdx    : Option Nat
  deriving DecidableEq, Repr

/-- Reasons for which the machine would stop with a fault: NONE. "Nothing in the block is ever stuck" (R135): the two
faults of the spec, CFG and NOBITSTART, latch `FAULT` and the block goes on to the next operation, so they are next
states (log 1). -/
inductive Fault where
  deriving DecidableEq, Repr

/-- Reasons for which the model gives an input no meaning. -/
inductive Refusal where
  /-- Raised by `exec`'s arm of an operation that has no meaning yet (safe). No arm of this model answers it. -/
  | notModelled (mnemonic : String)
  /-- Raised by the step for `cmd_op` 3, 6, 7, and by BAINIT and TXN (codes 4, 5) when the BA is absent: "a model
  **refuses** it" (R56). Safe: hardware ignores such a code and goes on (log 3). -/
  | reservedOperation (op : BitVec 3)
  /-- Raised by the step for a SAMPLE whose index does not exceed the one before it in its session: the model
  "checks it over the input list and refuses a list that breaks it" (R147). Safe (log 6). -/
  | unorderedIndex
  deriving DecidableEq, Repr

/-- The answer of a meaning or of a step. -/
abbrev Answer := Host.Outcome State Fault Refusal

/-- The machine right after power-on reset (R28, R140), with the Byte-Assembler present (log 4), nothing emitted
(log 9) and nothing presented yet (log 2). -/
def State.reset : State :=
  { samplerate := 0, fault := 0#2, prev := none, acc := [], pktIdx := none, riseIdx := none, fallIdx := none,
    inReset := false, baBuf := [], baGrpStart := none, hasBA := true, etdOut := [], baOut := [], input := [],
    lastIdx := none }

end Sys2Proof.Machine
end

