-- ==== Sys2Proof/Machine/Operands.lean ====
section
/-! DEFINITION. How values are formed: index differences, record data, the wire word and its reorder, the BA's word,
and reads of optional registers. -/

namespace Sys2Proof.Machine

/-- The difference of two indices, taken in ℤ (R90; it may be negative, R95 case 7). -/
def indexDiff (a b : Nat) : Int := (a : Int) - (b : Int)

/-- `rec_data` of a BIT record: `zext_24(b)` (R53). -/
def bitData (b : Bool) : Word24 := (BitVec.ofBool b).setWidth 24

/-- The accumulator as a shift register: each bit enters at bit 0 and shifts the earlier ones left (R14, R85), so a
full accumulator reads `grb = sum over k in 0..23 of acc[k] * 2^(23-k)` (R37). -/
def accValue (acc : List Bool) : Nat := acc.foldl (fun v b => 2 * v + b.toNat) 0

/-- The 24-bit wire word of a full accumulator (R37). -/
def wireWord (acc : List Bool) : Word24 := BitVec.ofNat 24 (accValue acc)

/-- The GRB-to-RGB reorder: `rgb = { grb[15:8], grb[23:16], grb[7:0] }` (R38, R86). -/
def reorderGrb (grb : Word24) : Word24 :=
  grb.extractLsb' 8 8 ++ grb.extractLsb' 16 8 ++ grb.extractLsb' 0 8

/-- The BA's word: big-endian, first byte received in the upper bits, no reorder (R107). -/
def baWord (b0 b1 b2 : Byte) : Word24 := b0 ++ b1 ++ b2

/-- Read an index register as the `n`-th record's start. Where its valid flag is 0 the value is unspecified (R12), so
a FREE VALUE results (log 8); the invariants R23 and R26 rule those states out. -/
def readIndex (r : Option Nat) (n : Nat) : Nat := r.getD (Config.freeIndex n)

/-- A BIT record (R83, R84, R53). -/
def bitRecord (start stop : Nat) (b : Bool) : Record :=
  { kind := .bit, start := start, stop := stop, data := bitData b }

/-- A RESET record; it carries no payload (R83, R53). -/
def resetRecord (start stop : Nat) : Record :=
  { kind := .reset, start := start, stop := stop, data := 0 }

/-- An RGB record (R86, R106, R53). -/
def rgbRecord (start stop : Nat) (rgb : Word24) : Record :=
  { kind := .rgb, start := start, stop := stop, data := rgb }

end Sys2Proof.Machine
end

