-- ==== Sys2Proof/Machine/Flags.lean ====
section
/-! DEFINITION. The conditions a SAMPLE computes: the two time comparisons, the duty comparison, edges, the
RESET condition. All are exact integer comparisons (R90). -/

namespace Sys2Proof.Machine

/-- `gap / R > 50e-6`, exactly: `gap * 1000000 > 50 * R` (R79, R90); strict. -/
def gapExceeded (gap : Int) (rate : Nat) : Bool :=
  decide (gap * Config.usPerSec > Config.resetGapUs * rate)

/-- The high-time classifier: `dur * 1000000000 >= 625 * R` (R82, R90); not strict, and 0 for a negative `dur`. -/
def highTimeBit (dur : Int) (rate : Nat) : Bool :=
  decide (dur * Config.nsPerSec ≥ Config.bit1HighNs * rate)

/-- The duty-cycle classifier: `2 * duty > period` (R84, R90); strict. -/
def dutyBit (duty period : Int) : Bool :=
  decide (Config.dutyDen * duty > Config.dutyNum * period)

/-- A rising edge: previous level low, current level high (R80). -/
def risingEdge (prev lvl : Bool) : Bool := !prev && lvl

/-- A falling edge: previous level high, current level low (R80). -/
def fallingEdge (prev lvl : Bool) : Bool := prev && !lvl

/-- The RESET-detection condition (R79): the line is low, `in_reset = 0`, a previous falling edge exists, and the gap
since it exceeds 50 µs. -/
def resetDetected (idx : Nat) (lvl : Bool) (s : State) : Bool :=
  match s.fallIdx with
  | none => false
  | some fall => !lvl && !s.inReset && gapExceeded (indexDiff idx fall) s.samplerate

end Sys2Proof.Machine
end

