-- ==== Sys2Proof/Machine/Ops.lean ====
section
/-! DEFINITION. The shared operations: `Emit`, raising a fault, the initialisations, appending a bit, pixel
assembly, and the guard of the optional unit. -/

namespace Sys2Proof.Machine

/-- Fault code CFG (R22, R120). -/
abbrev faultCfg : BitVec 2 := 1#2

/-- Fault code NOBITSTART (R22, R120). -/
abbrev faultNoBitStart : BitVec 2 := 2#2

/-- `Emit` on the ETD's output stream: append one record after every earlier one (R31). -/
def emitEtd (r : Record) (s : State) : State := { s with etdOut := s.etdOut ++ [r] }

/-- `Emit` on the BA's output stream (R31). -/
def emitBa (r : Record) (s : State) : State := { s with baOut := s.baOut ++ [r] }

/-- Fault entry's one write: `FAULT <- code` (R124). -/
def latchFault (code : BitVec 2) (s : State) : State := { s with fault := code }

/-- `raise Fault(code)` (R124): write `FAULT`, end the operation, save and emit nothing (R127). The block goes on to
the host's next operation, so the answer is a next state (log 1); the host sees the code on `fault_code` (R52). -/
def raiseFault (code : BitVec 2) (s : State) : Answer := .next (latchFault code s)

/-- The ETD registers at their reset values (R28, R66); it is also the only return from a fault (R129). -/
def initEtd (s : State) : State :=
  { s with
    samplerate := 0, fault := 0#2, prev := none, acc := [], pktIdx := none, riseIdx := none, fallIdx := none,
    inReset := false }

/-- The BA registers at their reset values (R28, R105). -/
def initBa (s : State) : State := { s with baBuf := [], baGrpStart := none }

/-- Power-on reset: both units (R140); records already emitted stay (R31, R142). -/
def powerOnReset (s : State) : State := initBa (initEtd s)

/-- Append a bit to the accumulator (R85). -/
def appendBit (b : Bool) (s : State) : State := { s with acc := s.acc ++ [b] }

/-- `PixelAssembly(boundary)` (R86, step 5): with exactly 24 bits, emit the reordered pixel from the packet start to
the boundary, and clear the accumulator and the packet start; otherwise nothing. -/
def pixelAssembly (boundary : Nat) (s : State) : State :=
  if s.acc.length = Config.accBits then
    { emitEtd (rgbRecord (readIndex s.pktIdx s.etdOut.length) boundary (reorderGrb (wireWord s.acc))) s with
      acc := [], pktIdx := none }
  else s

/-- Run an operation of the BA, whose code is `op`: reserved, and so refused, when the unit is absent (R56). -/
def withBa (op : BitVec 3) (s : State) (run : State → Answer) : Answer :=
  if s.hasBA then run s else .refused (.reservedOperation op)

end Sys2Proof.Machine
end

