-- ==== Sys2Proof/Machine/Assembler.lean ====
section
/-! DEFINITION. The Byte-Assembler: BAINIT and TXN (42_byte_assembler.md). -/

namespace Sys2Proof.Machine

/-- BAINIT (R105). -/
def execBainit (s : State) : Answer := withBa 0b100#3 s fun s => .next (initBa s)

/-- The first byte of a group records its start boundary (R106). -/
def openGroup (start : Nat) (s : State) : State :=
  if s.baBuf.length = 0 then { s with baGrpStart := some start } else s

/-- Append a byte to the buffer (R106). -/
def pushByte (byte : Byte) (s : State) : State := { s with baBuf := s.baBuf ++ [byte] }

/-- Exactly three bytes: emit their word from the group start to `stop` and clear the buffer; the group start stays
(R25, R106, R107). -/
def closeGroup (stop : Nat) (s : State) : State :=
  match s.baBuf with
  | [b0, b1, b2] =>
    { emitBa (rgbRecord (readIndex s.baGrpStart s.baOut.length) stop (baWord b0 b1 b2)) s with baBuf := [] }
  | _ => s

/-- TXN (R106): a transaction that is not DATA is ignored (R55); `byte2` is never read (R108). -/
def execTxn (start stop : Nat) (isData : Bool) (byte _byte2 : Byte) (s : State) : Answer :=
  withBa 0b101#3 s fun s =>
    if isData then .next (closeGroup stop (pushByte byte (openGroup start s))) else .next s

end Sys2Proof.Machine
end

