-- ==== Sys2Proof/Machine/Sample.lean ====
section
/-! DEFINITION. SAMPLE (R75), step by step in the source's order (R93). -/

namespace Sys2Proof.Machine

/-- The RESET path, steps 2a to 2d (R82, R83): classify the pending bit by high time, append it, assemble a pixel
ending at the last falling edge, emit BIT, emit RESET, clear. `fall_idx` stays (R17). -/
def resetPath (rise fall idx : Nat) (s : State) : State :=
  let b := highTimeBit (indexDiff fall rise) s.samplerate
  let s₁ := pixelAssembly fall (appendBit b s)
  let s₂ := emitEtd (resetRecord fall idx) (emitEtd (bitRecord rise fall b) s₁)
  { s₂ with acc := [], pktIdx := none, riseIdx := none, inReset := true }

/-- Step 3, first part (R84): with both indices valid, classify the pending bit by duty cycle, emit BIT, append,
assemble a pixel ending here; otherwise nothing. -/
def decidePending (idx : Nat) (s : State) : State :=
  match s.riseIdx, s.fallIdx with
  | some rise, some fall =>
    let b := dutyBit (indexDiff fall rise) (indexDiff idx rise)
    pixelAssembly idx (appendBit b (emitEtd (bitRecord rise idx b) s))
  | _, _ => s

/-- Step 3, second part (R87): packet start if none is pending, then bit start. -/
def startBit (idx : Nat) (s : State) : State :=
  { s with pktIdx := some (s.pktIdx.getD idx), riseIdx := some idx }

/-- Step 4 (R81): clear `in_reset`, record the pulse end. -/
def endPulse (idx : Nat) (s : State) : State := { s with inReset := false, fallIdx := some idx }

/-- Steps 3, 4 and 6: the edge, if there is one, then `prev_level <- lvl` (R80, R88). -/
def edgeSteps (prev lvl : Bool) (idx : Nat) (s : State) : State :=
  let s₁ :=
    if risingEdge prev lvl then startBit idx (decidePending idx s)
    else if fallingEdge prev lvl then endPulse idx s
    else s
  { s₁ with prev := some lvl }

/-- SAMPLE past its gate and first-sample step (R75 steps 2 to 6), with the previous level given. The RESET path
without a pending bit start raises NOBITSTART (R89). -/
def sampleSteps (prev : Bool) (idx : Nat) (lvl : Bool) (s : State) : Answer :=
  if resetDetected idx lvl s then
    match s.riseIdx, s.fallIdx with
    | some rise, some fall => .next (edgeSteps prev lvl idx (resetPath rise fall idx s))
    | _, _ => raiseFault faultNoBitStart s
  else .next (edgeSteps prev lvl idx s)

/-- SAMPLE (R75): the latched fault again (R76), then the configuration check (R77), then the first sample (R78),
then the steps. The rules are applied to whatever index arrives, as R147 says the realisation does; the order of the
indices is checked where the input is taken (log 6). -/
def execSample (idx : Nat) (lvl : Bool) (s : State) : Answer :=
  if s.fault ≠ 0#2 then raiseFault s.fault s
  else if s.samplerate = 0 then raiseFault faultCfg s
  else
    match s.prev with
    | none => .next { s with prev := some lvl }
    | some prev => sampleSteps prev idx lvl s

end Sys2Proof.Machine
end

