-- ==== Sys2Proof/Machine/Session.lean ====
section
/-! DEFINITION. Session control of the ETD: INIT and SETRATE (40_session_control.md). -/

namespace Sys2Proof.Machine

/-- INIT (R66): every ETD register to its reset value, in every state, the aborted one included. -/
def execInit (s : State) : Answer := .next (initEtd s)

/-- SETRATE (R67, R68): `SAMPLERATE <- rate`; `FAULT` and all else stay. -/
def execSetrate (rate : Nat) (s : State) : Answer := .next { s with samplerate := rate }

end Sys2Proof.Machine
end

