-- ==== Sys2Proof/Machine/Dispatch.lean ====
section
/-! DEFINITION. One arm per operation of the opcode table. -/

namespace Sys2Proof.Machine

def exec (i : Instr) (s : State) : Host.Outcome State Fault Refusal :=
  match i with
  | .init => Sys2Proof.Machine.execInit s
  | .setrate rate => Sys2Proof.Machine.execSetrate rate s
  | .sample idx lvl => Sys2Proof.Machine.execSample idx lvl s
  | .bainit => Sys2Proof.Machine.execBainit s
  | .txn start stop isData byte byte2 => Sys2Proof.Machine.execTxn start stop isData byte byte2 s

end Sys2Proof.Machine
end

