-- ==== Sys2Proof/Machine/Fetch.lean ====
section
/-! DEFINITION. Taking the host's next item. The block fetches nothing (R20, R42): the host presents operations one
at a time (R30), and this file reads them off `input`. -/

namespace Sys2Proof.Machine

/-- What the host's next item asks for, with the state in which the item has been taken. -/
inductive Fetched where
  /-- nothing is presented -/
  | idle
  /-- a power-on reset is signalled -/
  | powerOn (s : State)
  /-- an operation is presented -/
  | run (i : Instr) (s : State)
  /-- the model gives the item no meaning -/
  | reject (r : Refusal)
  deriving DecidableEq, Repr

/-- The premise of R147 for one operation: a SAMPLE's index exceeds that of the session's previous SAMPLE. -/
def inOrder (i : Instr) (lastIdx : Option Nat) : Bool :=
  match i with
  | .init => true
  | .setrate _ => true
  | .sample idx _ => lastIdx.all fun last => decide (last < idx)
  | .bainit => true
  | .txn _ _ _ _ _ => true

/-- The host's note of the session's last index after an operation: INIT begins a session (R65). -/
def noteIndex (i : Instr) (lastIdx : Option Nat) : Option Nat :=
  match i with
  | .init => none
  | .setrate _ => lastIdx
  | .sample idx _ => some idx
  | .bainit => lastIdx
  | .txn _ _ _ _ _ => lastIdx

/-- The state in which operation `i` has been taken from the input, leaving `rest`. -/
def takeOp (i : Instr) (rest : List HostItem) (s : State) : State :=
  { s with input := rest, lastIdx := noteIndex i s.lastIdx }

/-- The state in which a power-on reset has been taken from the input, leaving `rest`; it begins a session (R65). -/
def takePowerOn (rest : List HostItem) (s : State) : State := { s with input := rest, lastIdx := none }

/-- Take the host's next item: reserved codes are refused (R56), and so is a SAMPLE out of order (R147; log 6). -/
def fetch (s : State) : Fetched :=
  match s.input with
  | [] => .idle
  | .powerOn :: rest => .powerOn (takePowerOn rest s)
  | .cmd b :: rest =>
    match decode b with
    | .error (.reservedCode op) => .reject (.reservedOperation op)
    | .ok i => if inOrder i s.lastIdx then .run i (takeOp i rest s) else .reject .unorderedIndex

/-- Put a bundle where the next step takes its operation from, as the first of the host's presentations: the note of
an earlier index goes, so that a SAMPLE is in order whatever its index (log 11). -/
def placeBundle (b : Bundle) (s : State) : State := { s with input := .cmd b :: s.input, lastIdx := none }

end Sys2Proof.Machine
end

