-- ==== Sys2Proof/Machine/Step.lean ====
section
/-! DEFINITION. One step of the block: take the host's next item and run it. -/

namespace Sys2Proof.Machine

/-- With nothing presented the state stays as it is (R65, R146; log 2); a power-on reset initialises both units
(R140); an operation runs to its end (R8). -/
def step (s : State) : Host.Outcome State Fault Refusal :=
  match fetch s with
  | .idle => .next s
  | .powerOn s' => .next (powerOnReset s')
  | .run i s' => exec i s'
  | .reject r => .refused r

/-- The state whose next step runs the opcode-table word `w` (log 11). -/
def State.withFetchWord (s : State) (nbits w : Nat) : State := placeBundle (Bundle.ofTableWord nbits w) s

end Sys2Proof.Machine
end

