-- ==== Sys2Proof/Machine/Ports.lean ====
section
/-! DEFINITION. What the host sees: the fault outputs (R52), a record as a bundle (R50, R51), and the label a renderer
placed after the block makes of a record (R58). -/

namespace Sys2Proof.Machine

/-- The `fault` output: `FAULT != 0` (R52). -/
def faultOut (s : State) : Bool := s.fault != 0#2

/-- The `fault_code` output: `FAULT` (R52). -/
def faultCodeOut (s : State) : BitVec 2 := s.fault

/-- The code of a record kind: BIT 0, RESET 1, RGB 2 (R51). -/
def kindCode (k : RecKind) : BitVec 2 :=
  match k with
  | .bit => 0#2
  | .reset => 1#2
  | .rgb => 2#2

/-- The record bundle on a unit's output (R50). -/
structure RecordBundle where
  recKind  : BitVec 2
  recStart : BitVec Config.idxW
  recEnd   : BitVec Config.idxW
  recData  : Word24
  deriving DecidableEq, Repr

/-- A record as the bundle that presents it (R50); indices are below 2^IDX_W by the host's duty (R145). -/
def recordBundle (r : Record) : RecordBundle :=
  { recKind := kindCode r.kind, recStart := BitVec.ofNat Config.idxW r.start,
    recEnd := BitVec.ofNat Config.idxW r.stop, recData := r.data }

/-- A hexadecimal digit in lower case (R58). -/
def hexDigit (d : BitVec 4) : Char :=
  if d.toNat < 10 then Char.ofNat ('0'.toNat + d.toNat) else Char.ofNat ('a'.toNat + (d.toNat - 10))

/-- The label a renderer makes of a record (R58): the digit of a bit, the word RESET, or `#` and six digits, most
significant first (log 13). -/
def label (r : Record) : List Char :=
  match r.kind with
  | .bit => [if r.data.getLsbD 0 then '1' else '0']
  | .reset => ['R', 'E', 'S', 'E', 'T']
  | .rgb =>
    ['#', hexDigit (r.data.extractLsb' 20 4), hexDigit (r.data.extractLsb' 16 4),
      hexDigit (r.data.extractLsb' 12 4), hexDigit (r.data.extractLsb' 8 4),
      hexDigit (r.data.extractLsb' 4 4), hexDigit (r.data.extractLsb' 0 4)]

end Sys2Proof.Machine
end

