-- ==== Sys2Proof/Machine/TextForm.lean ====
section
/-! DEFINITION. The text forms of operation sequences (R59) and the pseudo-operations (R60), as expansions into
operations, and a run of a list of operations. Only statements and tests use this file; no meaning does. -/

namespace Sys2Proof.Machine

/-- One line of an operation sequence as the spec writes it (R59, R60). -/
inductive TextOp where
  | init
  | rate (hz : Nat)
  | s (idx : Nat) (lvl : Bool)
  | bainit
  | tData (start stop : Nat) (byte : Byte)
  | tOther (start stop : Nat)
  | pulse (t h : Nat)
  | runLevel (a b : Nat) (lvl : Bool)
  | wbit (h1 h0 t : Nat) (v : Bool)
  | por
  deriving DecidableEq, Repr

/-- PULSE: a rising edge at `t` and a falling edge at `t + h` (R60). -/
def pulseOps (t h : Nat) : List Instr := [.sample t true, .sample (t + h) false]

/-- RUN: consecutive samples of one level, `a` to `b` (R60; log 18). -/
def runOps (a b : Nat) (lvl : Bool) : List Instr := (List.range (b + 1 - a)).map fun k => .sample (a + k) lvl

/-- WBIT at stated high times `h1`, `h0` (R60). -/
def wbitOps (h1 h0 t : Nat) (v : Bool) : List Instr := pulseOps t (if v then h1 else h0)

/-- The operations a line stands for (R59, R60). -/
def TextOp.expand : TextOp → List Instr
  | .init => [.init]
  | .rate hz => [.setrate hz]
  | .s idx lvl => [.sample idx lvl]
  | .bainit => [.bainit]
  | .tData start stop byte => [.txn start stop true byte 0]
  | .tOther start stop => [.txn start stop false 0 0]
  | .pulse t h => pulseOps t h
  | .runLevel a b lvl => runOps a b lvl
  | .wbit h1 h0 t v => wbitOps h1 h0 t v
  | .por => [.init, .bainit]

/-- Run operations one after another, stopping at the first that answers no next state. -/
def execAll : List Instr → State → Answer
  | [], s => .next s
  | i :: is, s =>
    match exec i s with
    | .next t => execAll is t
    | .fault r => .fault r
    | .refused r => .refused r

end Sys2Proof.Machine
end

