-- ==== Sys2Proof/Safety.lean ====
section
/-! DEFINITION. The terms in which claims are stated: the premises of the spec (R147, R135), the invariants between
operations (R23, R26), what a unit's registers are, and what a stream should hold. -/

namespace Sys2Proof.Machine

/-- The gate and the configuration check of a SAMPLE pass (R76, R77). -/
def State.Running (s : State) : Prop := s.fault = 0#2 ∧ s.samplerate ≠ 0

/-- Every index the ETD holds is below `idx`: the premise of R147 as one SAMPLE sees it, since every index held is
that of an earlier SAMPLE of the session. -/
structure State.Precedes (s : State) (idx : Nat) : Prop where
  pkt  : ∀ p, s.pktIdx = some p → p < idx
  rise : ∀ r, s.riseIdx = some r → r < idx
  fall : ∀ f, s.fallIdx = some f → f < idx

/-- The premise of R147 for one operation. -/
def State.InOrder (s : State) (i : Instr) : Prop :=
  match i with
  | .init => True
  | .setrate _ => True
  | .sample idx _ => s.Precedes idx
  | .bainit => True
  | .txn _ _ _ _ _ => True

/-- The premise of R147 for a list of operations, after a SAMPLE of index `last` in the session, if any. -/
def orderedFrom : Option Nat → List Instr → Bool
  | _, [] => true
  | last, i :: is => inOrder i last && orderedFrom (noteIndex i last) is

/-- The four conjuncts of the RESET-detection condition (R79), with the last falling edge named. -/
structure State.ResetDue (s : State) (idx : Nat) (lvl : Bool) (fall : Nat) : Prop where
  low      : lvl = false
  notYet   : s.inReset = false
  fallEdge : s.fallIdx = some fall
  gap      : ((idx : Int) - (fall : Int)) * 1000000 > 50 * (s.samplerate : Int)

/-- The RESET-detection condition (R79) fails. -/
def State.NoResetDue (s : State) (idx : Nat) (lvl : Bool) : Prop := ∀ fall, ¬ s.ResetDue idx lvl fall

/-- The ETD rows of R28. -/
structure State.EtdAtReset (s : State) : Prop where
  samplerate : s.samplerate = 0
  fault      : s.fault = 0#2
  prev       : s.prev = none
  acc        : s.acc = []
  pktIdx     : s.pktIdx = none
  riseIdx    : s.riseIdx = none
  fallIdx    : s.fallIdx = none
  inReset    : s.inReset = false

/-- The BA rows of R28. -/
structure State.BaAtReset (s : State) : Prop where
  baBuf      : s.baBuf = []
  baGrpStart : s.baGrpStart = none

/-- Two states agree on every ETD register. -/
structure SameEtd (s t : State) : Prop where
  samplerate : t.samplerate = s.samplerate
  fault      : t.fault = s.fault
  prev       : t.prev = s.prev
  acc        : t.acc = s.acc
  pktIdx     : t.pktIdx = s.pktIdx
  riseIdx    : t.riseIdx = s.riseIdx
  fallIdx    : t.fallIdx = s.fallIdx
  inReset    : t.inReset = s.inReset

/-- Two states agree on every BA register. -/
structure SameBa (s t : State) : Prop where
  baBuf      : t.baBuf = s.baBuf
  baGrpStart : t.baGrpStart = s.baGrpStart

/-- Two states agree on what no operation writes: the build parameter and the host's side. -/
structure SameHost (s t : State) : Prop where
  hasBA   : t.hasBA = s.hasBA
  input   : t.input = s.input
  lastIdx : t.lastIdx = s.lastIdx

/-- R23 invariants 1 to 5, and R22: `FAULT` is never 3. -/
structure EtdInv (s : State) : Prop where
  accShort   : s.acc.length ≤ 23
  risePkt    : s.riseIdx.isSome → s.pktIdx.isSome
  accRise    : s.acc ≠ [] → s.riseIdx.isSome
  risePrev   : s.riseIdx.isSome → s.prev.isSome
  fallPrev   : s.fallIdx.isSome → s.prev.isSome
  resetFall  : s.inReset = true → s.fallIdx.isSome
  faultLegal : s.fault ≠ 3#2

/-- R26. -/
structure BaInv (s : State) : Prop where
  bufShort : s.baBuf.length ≤ 2
  bufGroup : s.baBuf ≠ [] → s.baGrpStart.isSome

/-- R23 invariant 6 and what it rests on, under the order of R147: no index held exceeds the session's last one, the
packet starts no later than the pending bit, and the pending bit's falling edge lies after its rising edge exactly
when the line has fallen since (R84 `[derived]`). -/
structure OrderInv (s : State) : Prop where
  pktLast   : ∀ p, s.pktIdx = some p → ∃ l, s.lastIdx = some l ∧ p ≤ l
  riseLast  : ∀ r, s.riseIdx = some r → ∃ l, s.lastIdx = some l ∧ r ≤ l
  fallLast  : ∀ f, s.fallIdx = some f → ∃ l, s.lastIdx = some l ∧ f ≤ l
  pktRise   : ∀ p r, s.pktIdx = some p → s.riseIdx = some r → p ≤ r
  fallenBit : ∀ r, s.riseIdx = some r → s.prev = some false → ∃ f, s.fallIdx = some f ∧ r < f
  highBit   : ∀ r f, s.riseIdx = some r → s.prev = some true → s.fallIdx = some f → f < r
  pktFall   : ∀ p f, s.acc ≠ [] → s.pktIdx = some p → s.fallIdx = some f → p < f

/-- The invariant of the machine between any two steps. -/
structure Inv (s : State) : Prop where
  etd   : EtdInv s
  ba    : BaInv s
  order : OrderInv s

/-- The records the ETD emitted on the way from `s` to `t`. -/
def newEtd (s t : State) : List Record := t.etdOut.drop s.etdOut.length

/-- The records the BA emitted on the way from `s` to `t`. -/
def newBa (s t : State) : List Record := t.baOut.drop s.baOut.length

/-- The records of one kind. -/
def ofKind (k : RecKind) (rs : List Record) : List Record := rs.filter fun r => r.kind = k

/-- R33 points 1 to 3, of the ETD records of one session: start indices of a kind strictly increase, and each RGB
record ends no later than the next one starts. -/
structure StartsIncrease (rs : List Record) : Prop where
  bit   : (ofKind .bit rs).Pairwise fun a b => a.start < b.start
  reset : (ofKind .reset rs).Pairwise fun a b => a.start < b.start
  rgb   : (ofKind .rgb rs).Pairwise fun a b => a.start < b.start ∧ a.stop ≤ b.start

/-- R53: what a record carries. -/
def Record.DataForm (r : Record) : Prop :=
  match r.kind with
  | .bit => r.data = 0 ∨ r.data = 1
  | .reset => r.data = 0
  | .rgb => True

/-- R31 and R53 of both streams: the forms of the ETD's records; the BA emits RGB only. -/
structure StreamForms (s : State) : Prop where
  etd : ∀ r ∈ s.etdOut, r.DataForm
  ba  : ∀ r ∈ s.baOut, r.kind = .rgb

/-- R33 point 5: every RESET record stands immediately after a BIT record whose end index is its start index. -/
def ResetsFollowBits (rs : List Record) : Prop :=
  ∀ (k : Nat) (r : Record), rs[k]? = some r → r.kind = .reset →
    ∃ (j : Nat) (b : Record), k = j + 1 ∧ rs[j]? = some b ∧ b.kind = .bit ∧ b.stop = r.start

/-- The wire word of 24 bits as R37 writes it: `sum over k in 0..23 of acc[k] * 2^(23-k)`. -/
def wireSum (bits : List Bool) : Nat :=
  ((List.range 24).map fun k => (if bits[k]? = some true then 1 else 0) * 2 ^ (23 - k)).sum

/-- The pixel of 24 bits as R86 writes it: `red * 65536 + green * 256 + blue`. -/
def pixelOf (bits : List Bool) : Word24 :=
  let grb := wireSum bits
  let green := grb / 65536 % 256
  let red := grb / 256 % 256
  let blue := grb % 256
  BitVec.ofNat 24 (red * 65536 + green * 256 + blue)

/-- One transaction as the BA's input carries it: boundaries and payload (R49). -/
structure Transaction where
  start  : Nat
  stop   : Nat
  isData : Bool
  byte   : Byte
  byte2  : Byte
  deriving DecidableEq, Repr

/-- The operation that presents a transaction (R49). -/
def Transaction.op (x : Transaction) : Instr := .txn x.start x.stop x.isData x.byte x.byte2

/-- The records that a list of DATA transactions gives from an empty buffer: one for every three (R40, R106, R107). -/
def triples : List Transaction → List Record
  | a :: b :: c :: rest =>
    { kind := .rgb, start := a.start, stop := c.stop,
      data := BitVec.ofNat 24 (a.byte.toNat * 65536 + b.byte.toNat * 256 + c.byte.toNat) } :: triples rest
  | _ => []

/-- The bytes left over of a list of DATA transactions: the partial trailing group (R40). -/
def leftOver : List Transaction → List Byte
  | _ :: _ :: _ :: rest => leftOver rest
  | xs => xs.map fun x => x.byte

/-- An item of the host's that begins a new ETD session: INIT or a power-on reset (R65). -/
def HostItem.beginsSession : HostItem → Bool
  | .cmd b => b.op = 0#3
  | .powerOn => true

/-- Run `k` steps of the machine, stopping at the first that answers no next state. -/
def runSteps : Nat → State → Answer
  | 0, s => .next s
  | k + 1, s =>
    match step s with
    | .next t => runSteps k t
    | .fault r => .fault r
    | .refused r => .refused r

/-- The pulses of a train of bits: bit `k` of the list rises `k` periods after `t` (R60, `WBIT`). -/
def pulseTrain (period h1 h0 : Nat) : Nat → List Bool → List Instr
  | _, [] => []
  | t, v :: vs => wbitOps h1 h0 t v ++ pulseTrain period h1 h0 (t + period) vs

/-- The BIT record of bit `k` of such a train, when the next rising edge decides it (R84). -/
def trainBit (period t : Nat) (vs : List Bool) (k : Nat) : Record :=
  { kind := .bit, start := t + k * period, stop := t + (k + 1) * period,
    data := if vs[k]? = some true then 1 else 0 }

/-- The RGB record of pixel `j` of such a train (R86, R87). -/
def trainPixel (period t : Nat) (vs : List Bool) (j : Nat) : Record :=
  { kind := .rgb, start := t + 24 * j * period, stop := t + 24 * (j + 1) * period,
    data := pixelOf ((vs.drop (24 * j)).take 24) }

end Sys2Proof.Machine
end

