-- ==== Sys2Proof/Certificates/Slice0/Obligations.lean ====
section
/-! DEFINITION. The statements for the provers. Each docstring names the rule it formalises. A statement about a
SAMPLE carries the premise of R147 (`Precedes`, `InOrder`, `orderedFrom`): the spec gives other input no meaning. -/

open Sys2Proof Sys2Proof.Machine

/-! ## Reset and session control -/

/-- R28: the values after power-on reset, after INIT (ETD rows) and after BAINIT (BA rows). -/
def Obligations.ResetValuesOfBothUnits : Prop :=
  (State.reset.EtdAtReset ∧ State.reset.BaAtReset) ∧
  (∀ s : State, (powerOnReset s).EtdAtReset ∧ (powerOnReset s).BaAtReset) ∧
  (∀ s : State, ∃ t, exec .init s = .next t ∧ t.EtdAtReset) ∧
  (∀ s : State, s.hasBA = true → ∃ t, exec .bainit s = .next t ∧ t.BaAtReset)

/-- R66: INIT is code 0; it clears every ETD register in every state and changes nothing else; a second INIT changes
nothing; a SAMPLE before the next SETRATE faults with CFG. -/
def Obligations.InitClearsTheEtdOnly : Prop :=
  (∀ b : Bundle, b.op = 0#3 → decode b = .ok .init) ∧
  ∀ s : State,
    let t : State :=
      { s with
        samplerate := 0, fault := 0#2, prev := none, acc := [], pktIdx := none, riseIdx := none, fallIdx := none,
        inReset := false }
    exec .init s = .next t ∧ exec .init t = .next t ∧
      ∀ idx lvl, exec (.sample idx lvl) t = .next { t with fault := 1#2 }

/-- R67: SETRATE is code 1, its rate `cmd_rate`; it writes SAMPLERATE and nothing else, in every state. -/
def Obligations.SetrateWritesSamplerateOnly : Prop :=
  (∀ b : Bundle, b.op = 1#3 → decode b = .ok (.setrate b.rate.toNat)) ∧
  ∀ (s : State) (rate : Nat), exec (.setrate rate) s = .next { s with samplerate := rate }

/-- R68 (a) to (d): a rate of 0 makes the next SAMPLE fault with CFG; a later rate is used by later SAMPLEs, in both
time comparisons; SETRATE in the aborted state leaves the session aborted; repeating it changes nothing. -/
def Obligations.SetrateCornerCases : Prop :=
  ∀ (s t : State) (rate : Nat), exec (.setrate rate) s = .next t →
    (rate = 0 → s.fault = 0#2 → ∀ idx lvl, s.Precedes idx →
      exec (.sample idx lvl) t = .next { t with fault := 1#2 }) ∧
    (∀ (idx rise fall : Nat), s.Precedes idx → s.fault = 0#2 → rate ≠ 0 → s.prev = some false → s.inReset = false →
      s.acc = [] → s.riseIdx = some rise → s.fallIdx = some fall →
      ((idx : Int) - fall) * 1000000 > 50 * (rate : Int) →
      ∃ u, exec (.sample idx false) t = .next u ∧
        u.etdOut = s.etdOut ++
          [⟨.bit, rise, fall, if ((fall : Int) - rise) * 1000000000 ≥ 625 * (rate : Int) then 1 else 0⟩,
            ⟨.reset, fall, idx, 0⟩]) ∧
    (s.fault ≠ 0#2 → t.fault = s.fault ∧ ∀ idx lvl, s.Precedes idx → exec (.sample idx lvl) t = .next t) ∧
    exec (.setrate rate) t = .next t

/-- R140: power-on reset is INIT followed by BAINIT. That the step takes it from the host's list is the model's choice
(notes/assumptions/10.md). -/
def Obligations.PowerOnResetIsInitThenBainit : Prop :=
  (∀ s : State, s.hasBA = true → execAll TextOp.por.expand s = .next (powerOnReset s)) ∧
  (∀ (s : State) (rest : List HostItem), s.input = .powerOn :: rest →
    step s = .next (powerOnReset { s with input := rest, lastIdx := none }))

/-- R141, R142: after INIT no later behaviour of the ETD depends on anything before it: the same operations, in
order, give the same ETD registers and the same records, whatever the two histories. -/
def Obligations.SessionsAreIndependent : Prop :=
  ∀ (ops : List Instr) (s₁ s₂ t₁ t₂ : State), orderedFrom none ops = true →
    execAll (.init :: ops) s₁ = .next t₁ → execAll (.init :: ops) s₂ = .next t₂ →
    SameEtd t₁ t₂ ∧ newEtd s₁ t₁ = newEtd s₂ t₂

/-! ## Faults -/

/-- R76: in the aborted state a SAMPLE raises the latched fault, changes no state and emits nothing. -/
def Obligations.AbortedSampleRaisesLatchedFault : Prop :=
  ∀ (s : State) (idx : Nat) (lvl : Bool), s.Precedes idx → s.fault ≠ 0#2 →
    exec (.sample idx lvl) s = .next s ∧ faultOut s = true ∧ faultCodeOut s = s.fault

/-- R77: with the gate passed and SAMPLERATE = 0 a SAMPLE raises CFG, whatever its operands, the first included. -/
def Obligations.SampleWithoutRateRaisesCfg : Prop :=
  ∀ (s : State) (idx : Nat) (lvl : Bool), s.Precedes idx → s.fault = 0#2 → s.samplerate = 0 →
    exec (.sample idx lvl) s = .next { s with fault := 1#2 }

/-- R89: the RESET condition without a valid `rise_idx` raises NOBITSTART and changes nothing else. -/
def Obligations.ResetWithoutBitStartRaisesNoBitStart : Prop :=
  ∀ (s : State) (idx fall : Nat) (prev lvl : Bool), s.Precedes idx → s.Running → s.prev = some prev →
    s.ResetDue idx lvl fall → s.riseIdx = none →
    exec (.sample idx lvl) s = .next { s with fault := 2#2 }

/-- R128 (which the spec marks derived): the latched fault, then CFG, then NOBITSTART; the first that
applies is the one latched, and none otherwise. -/
def Obligations.FaultPriorityWithinSample : Prop :=
  ∀ (s : State) (idx : Nat) (lvl : Bool), s.Precedes idx →
    ∃ t, exec (.sample idx lvl) s = .next t ∧
      (s.fault ≠ 0#2 → t.fault = s.fault) ∧
      (s.fault = 0#2 → s.samplerate = 0 → t.fault = 1#2) ∧
      (s.Running → (t.fault = 2#2 ↔ s.prev ≠ none ∧ s.riseIdx = none ∧ ∃ fall, s.ResetDue idx lvl fall)) ∧
      (s.Running → t.fault = 0#2 ∨ t.fault = 2#2)

/-- R127, R123: an operation after which `FAULT` is set has changed nothing but `FAULT`, and only a SAMPLE sets it. -/
def Obligations.FaultsArePrecise : Prop :=
  ∀ (i : Instr) (s t : State), s.InOrder i → exec i s = .next t → t.fault ≠ 0#2 →
    (s.fault = 0#2 → (∃ idx lvl, i = .sample idx lvl) ∧ (t.fault = 1#2 ∨ t.fault = 2#2)) ∧
    ((∃ idx lvl, i = .sample idx lvl) → t = { s with fault := t.fault })

/-- R129: a latched fault changes in a step exactly when the step takes INIT or a power-on reset, and then every ETD
register is at its reset value; no other step raises another code. -/
def Obligations.OnlyInitializationLeavesAbortedState : Prop :=
  ∀ s t : State, step s = .next t → s.fault ≠ 0#2 →
    (t.fault ≠ s.fault ↔ ∃ x rest, s.input = x :: rest ∧ x.beginsSession = true) ∧
      (t.fault ≠ s.fault → t.EtdAtReset)

/-- R52, R22: the outputs follow the register, and `fault_code` 3 is never produced: no step latches it. -/
def Obligations.FaultCodeThreeIsNeverLatched : Prop :=
  ∀ s t : State, faultCodeOut s ≠ 3#2 → step s = .next t →
    faultCodeOut t ≠ 3#2 ∧ (faultOut t = true ↔ t.fault ≠ 0#2) ∧ faultCodeOut t = t.fault

/-! ## SAMPLE -/

/-- R78: the first SAMPLE of a session records its level and does nothing else. -/
def Obligations.FirstSampleRecordsLevelOnly : Prop :=
  ∀ (s : State) (idx : Nat) (lvl : Bool), s.Precedes idx → s.Running → s.prev = none →
    exec (.sample idx lvl) s = .next { s with prev := some lvl }

/-- R80, R88: with no edge and no RESET marker a SAMPLE changes nothing. -/
def Obligations.SampleWithoutEdgeChangesNothing : Prop :=
  ∀ (s : State) (idx : Nat) (lvl : Bool), s.Precedes idx → s.Running → s.prev = some lvl →
    s.NoResetDue idx lvl → exec (.sample idx lvl) s = .next s

/-- R81: a falling edge clears `in_reset` and records `fall_idx`; it emits nothing and decides no bit; no other
operation but INIT clears the flag or writes `fall_idx`. -/
def Obligations.FallingEdgeRecordsPulseEnd : Prop :=
  (∀ (s : State) (idx : Nat), s.Precedes idx → s.Running → s.prev = some true → s.NoResetDue idx false →
    exec (.sample idx false) s = .next { s with prev := some false, inReset := false, fallIdx := some idx }) ∧
  (∀ (i : Instr) (s t : State), s.InOrder i → exec i s = .next t → i ≠ .init →
    t.fallIdx ≠ s.fallIdx ∨ (s.inReset = true ∧ t.inReset = false) →
    ∃ idx, i = .sample idx false ∧ s.prev = some true ∧ t.fallIdx = some idx ∧ t.inReset = false)

/-- R84, R86, R87: a rising edge. With both indices valid the pending bit is decided by duty cycle, emitted and appended,
and a 24th bit completes a pixel that ends here; then the packet start, if none is pending, and the bit start are
set. With either index not valid only the latter happens. The clause `0 < duty < period`, whenever a bit is decided in a
state that meets `Inv`, is the inference that R84 marks derived from R81, R83 and R87. -/
def Obligations.RisingEdgeDecidesPendingBit : Prop :=
  ∀ (s : State) (idx : Nat), s.Precedes idx → s.Running → s.prev = some false →
    (∀ rise fall pkt, s.riseIdx = some rise → s.fallIdx = some fall → s.pktIdx = some pkt →
      let b : Bool := decide (2 * ((fall : Int) - rise) > (idx : Int) - rise)
      let bitRec : Record := ⟨.bit, rise, idx, if b then 1 else 0⟩
      (s.acc.length ≠ 23 →
        exec (.sample idx true) s =
          .next { s with
            prev := some true, riseIdx := some idx, acc := s.acc ++ [b], etdOut := s.etdOut ++ [bitRec] }) ∧
      (s.acc.length = 23 →
        exec (.sample idx true) s =
          .next { s with
            prev := some true, riseIdx := some idx, pktIdx := some idx, acc := [],
            etdOut := s.etdOut ++ [bitRec, ⟨.rgb, pkt, idx, pixelOf (s.acc ++ [b])⟩] }) ∧
      (Inv s → 0 < (fall : Int) - rise ∧ (fall : Int) - rise < (idx : Int) - rise)) ∧
    (s.riseIdx = none ∨ s.fallIdx = none →
      exec (.sample idx true) s =
        .next { s with prev := some true, riseIdx := some idx, pktIdx := some (s.pktIdx.getD idx) })

/-- R79: a RESET record is emitted, or NOBITSTART raised, exactly when the four conditions hold. -/
def Obligations.ResetMarkerExactlyWhenDue : Prop :=
  ∀ (s : State) (idx : Nat) (lvl : Bool), s.Precedes idx → s.Running → s.prev ≠ none →
    ∃ t, exec (.sample idx lvl) s = .next t ∧
      (((∃ r ∈ newEtd s t, r.kind = .reset) ∨ t.fault = 2#2) ↔ ∃ fall, s.ResetDue idx lvl fall)

/-- R82, R83: the RESET path. The pending bit is decided by high time, a negative one being 0; a 24th bit completes a
pixel that ends at the last falling edge, emitted before BIT and RESET; then the four registers are cleared, and
`fall_idx` stays unless the SAMPLE is itself a falling edge. -/
def Obligations.ResetMarkerFinalizesPendingBit : Prop :=
  ∀ (s : State) (idx rise fall pkt : Nat) (prev lvl : Bool), s.Precedes idx → s.Running → s.prev = some prev →
    s.ResetDue idx lvl fall → s.riseIdx = some rise → s.pktIdx = some pkt →
    let b : Bool := decide (((fall : Int) - rise) * 1000000000 ≥ 625 * (s.samplerate : Int))
    let marker : List Record := [⟨.bit, rise, fall, if b then 1 else 0⟩, ⟨.reset, fall, idx, 0⟩]
    exec (.sample idx lvl) s =
      .next { s with
        prev := some false, acc := [], pktIdx := none, riseIdx := none, inReset := !prev,
        fallIdx := some (if prev then idx else fall),
        etdOut := s.etdOut ++
          (if s.acc.length = 23 then [⟨.rgb, pkt, fall, pixelOf (s.acc ++ [b])⟩] else []) ++ marker }

/-- R95 case 7, R153: the RESET marker on a falling-edge SAMPLE gives a reversed BIT record with bit 0, and the new
falling edge is recorded by the same SAMPLE. -/
def Obligations.ResetMarkerOnFallingEdgeReversesBit : Prop :=
  ∀ (s : State) (idx rise fall pkt : Nat), Inv s → s.Precedes idx → s.Running → s.prev = some true →
    s.ResetDue idx false fall → s.riseIdx = some rise → s.pktIdx = some pkt → s.acc.length ≠ 23 →
    fall < rise ∧
    exec (.sample idx false) s =
      .next { s with
        prev := some false, acc := [], pktIdx := none, riseIdx := none, inReset := false, fallIdx := some idx,
        etdOut := s.etdOut ++ [⟨.bit, rise, fall, 0⟩, ⟨.reset, fall, idx, 0⟩] }

/-- R95 case 5: after a marker, low samples in any number change nothing and emit nothing. -/
def Obligations.OneResetMarkerPerLowPeriod : Prop :=
  ∀ (s : State) (idxs : List Nat), s.Running → s.prev = some false → s.inReset = true →
    idxs.Pairwise (· < ·) → (∀ idx ∈ idxs, s.Precedes idx) →
    execAll (idxs.map fun idx => .sample idx false) s = .next s

/-- R34 (which the spec marks derived): the record sequences of one SAMPLE, and when each occurs. -/
def Obligations.SampleEmitsOneOfFiveSequences : Prop :=
  ∀ (s t : State) (idx : Nat) (lvl : Bool), s.Precedes idx → exec (.sample idx lvl) s = .next t →
    ∃ rs, t.etdOut = s.etdOut ++ rs ∧
      (rs = [] ∨
        (rs.map (·.kind) = [.bit] ∧ s.prev = some false ∧ lvl = true ∧ s.acc.length + 1 ≠ 24) ∨
        (rs.map (·.kind) = [.bit, .rgb] ∧ s.prev = some false ∧ lvl = true ∧ s.acc.length + 1 = 24) ∨
        (rs.map (·.kind) = [.bit, .reset] ∧ (∃ fall, s.ResetDue idx lvl fall) ∧ s.acc.length + 1 ≠ 24) ∨
        (rs.map (·.kind) = [.rgb, .bit, .reset] ∧ (∃ fall, s.ResetDue idx lvl fall) ∧
          s.acc.length + 1 = 24)) ∧
      (t.fault ≠ 0#2 → rs = []) ∧ (s.prev = none → rs = []) ∧
      (s.prev = some false → lvl = true → s.Running → s.riseIdx ≠ none → s.fallIdx ≠ none → rs ≠ [])

/-- R39, R96 (1): decided bits are counted by twenty-four between RESET markers. In a state that meets `EtdInv` (R23's
invariants 1 to 5, R22), with no RESET record every BIT record is a bit appended and 24 bits leave the accumulator for
each RGB record; a RESET record leaves it empty, discarding the 1 to 23 bits that complete no pixel. -/
def Obligations.DecidedBitsAreGroupedByTwentyFour : Prop :=
  ∀ (s t : State) (idx : Nat) (lvl : Bool), EtdInv s → s.Precedes idx → exec (.sample idx lvl) s = .next t →
    (ofKind .reset (newEtd s t) = [] →
      t.acc.length + 24 * (ofKind .rgb (newEtd s t)).length =
        s.acc.length + (ofKind .bit (newEtd s t)).length) ∧
    (ofKind .reset (newEtd s t) ≠ [] →
      t.acc = [] ∧ s.acc.length + 1 = 24 * (ofKind .rgb (newEtd s t)).length + (s.acc.length + 1) % 24)

/-- The frame of a SAMPLE (R11's "written by" column, R10): the rate, the BA, its stream, the build parameter and the
host's side stay; `FAULT` stays unless it is raised. -/
def Obligations.SampleLeavesTheRestUnchanged : Prop :=
  ∀ (s t : State) (idx : Nat) (lvl : Bool), s.Precedes idx → exec (.sample idx lvl) s = .next t →
    t.samplerate = s.samplerate ∧ SameBa s t ∧ t.baOut = s.baOut ∧ SameHost s t ∧
      (t.fault ≠ s.fault → t = { s with fault := t.fault })

/-! ## Values -/

/-- R86, R37, R38: pixel assembly on 24 bits and on any other number; the worked value 0x341256. -/
def Obligations.PixelAssemblyReordersGrbToRgb : Prop :=
  (∀ (s : State) (pkt boundary : Nat), s.pktIdx = some pkt →
    (s.acc.length = 24 →
      pixelAssembly boundary s =
        { s with acc := [], pktIdx := none, etdOut := s.etdOut ++ [⟨.rgb, pkt, boundary, pixelOf s.acc⟩] }) ∧
    (s.acc.length ≠ 24 → pixelAssembly boundary s = s)) ∧
  ∀ bits : List Bool, bits.length = 24 → wireSum bits = 0x123456 → pixelOf bits = 0x341256

/-- R37, R38: bit by bit, the bit received `k`-th lands in the red, green or blue byte of the pixel. -/
def Obligations.PixelBitsComeFromTheirWirePlaces : Prop :=
  ∀ bits : List Bool, bits.length = 24 → ∀ k : Nat, k < 8 →
    (reorderGrb (wireWord bits)).getLsbD (8 + k) = (bits[7 - k]?).getD false ∧
    (reorderGrb (wireWord bits)).getLsbD (16 + k) = (bits[15 - k]?).getD false ∧
    (reorderGrb (wireWord bits)).getLsbD k = (bits[23 - k]?).getD false

/-- R91 (which the spec marks derived from R90): the two time thresholds in samples, the table, and rates of
1.6 MHz and below. -/
def Obligations.TimeThresholdsInSamples : Prop :=
  (∀ (gap : Int) (rate : Nat), gapExceeded gap rate = true ↔ gap ≥ ((rate / 20000 + 1 : Nat) : Int)) ∧
  (∀ (dur : Int) (rate : Nat), highTimeBit dur rate = true ↔ dur ≥ (((rate + 1599999) / 1600000 : Nat) : Int)) ∧
  (∀ row ∈ ([(1000000, 51, 1), (1600000, 81, 1), (8000000, 401, 5), (16000000, 801, 10), (20000000, 1001, 13),
      (24000000, 1201, 15), (100000000, 5001, 63), (1000000000, 50001, 625)] : List (Nat × Int × Int)),
    gapExceeded row.2.1 row.1 = true ∧ gapExceeded (row.2.1 - 1) row.1 = false ∧
    highTimeBit row.2.2 row.1 = true ∧ highTimeBit (row.2.2 - 1) row.1 = false) ∧
  (∀ (dur : Int) (rate : Nat), rate ≤ 1600000 → dur > 0 → highTimeBit dur rate = true)

/-- R92: the two classifiers differ; the spec's pulse, 12 samples high at 20 MHz with the next rise at 20. -/
def Obligations.TheTwoClassifiersDisagree : Prop :=
  dutyBit 12 20 = true ∧ highTimeBit 12 20000000 = false

/-- R58: the label of an RGB record is `#` and six digits whose value, most significant first, is the pixel; BIT
gives its digit, RESET its word. -/
def Obligations.LabelsSpellTheData : Prop :=
  (∀ (start stop : Nat) (rgb : Word24), ∃ d : Fin 6 → BitVec 4,
    label ⟨.rgb, start, stop, rgb⟩ =
      ['#', hexDigit (d 0), hexDigit (d 1), hexDigit (d 2), hexDigit (d 3), hexDigit (d 4), hexDigit (d 5)] ∧
    rgb.toNat = (d 0).toNat * 1048576 + (d 1).toNat * 65536 + (d 2).toNat * 4096 + (d 3).toNat * 256 +
      (d 4).toNat * 16 + (d 5).toNat) ∧
  (∀ start stop : Nat, label ⟨.bit, start, stop, 0⟩ = ['0'] ∧ label ⟨.bit, start, stop, 1⟩ = ['1'] ∧
    label ⟨.reset, start, stop, 0⟩ = ['R', 'E', 'S', 'E', 'T']) ∧
  ((List.range 16).map fun k => hexDigit (BitVec.ofNat 4 k)) =
    ['0', '1', '2', '3', '4', '5', '6', '7', '8', '9', 'a', 'b', 'c', 'd', 'e', 'f']

/-- R50, R51: the bundle of a record carries its kind's code, its data, and its indices when they fit. -/
def Obligations.RecordBundleCarriesRecord : Prop :=
  (kindCode .bit = 0#2 ∧ kindCode .reset = 1#2 ∧ kindCode .rgb = 2#2) ∧
  ∀ r : Record, fitsIndex r.start = true → fitsIndex r.stop = true →
    (recordBundle r).recKind = kindCode r.kind ∧ (recordBundle r).recStart.toNat = r.start ∧
    (recordBundle r).recEnd.toNat = r.stop ∧ (recordBundle r).recData = r.data ∧ (recordBundle r).recKind ≠ 3#2

/-! ## The Byte-Assembler -/

/-- R105: BAINIT is code 4; it clears the BA and changes nothing else; a second BAINIT changes nothing. -/
def Obligations.BainitClearsTheBaOnly : Prop :=
  (∀ b : Bundle, b.op = 4#3 → decode b = .ok .bainit) ∧
  ∀ s : State, s.hasBA = true →
    let t : State := { s with baBuf := [], baGrpStart := none }
    exec .bainit s = .next t ∧ exec .bainit t = .next t

/-- R55: a transaction that is not DATA has no output and changes no state. -/
def Obligations.NonDataTransactionIsIgnored : Prop :=
  ∀ (s : State) (start stop : Nat) (byte byte2 : Byte), s.hasBA = true →
    exec (.txn start stop false byte byte2) s = .next s

/-- R106, R107: a DATA transaction opens a group, is appended, or completes it with one RGB record, big-endian. -/
def Obligations.DataTransactionFillsGroup : Prop :=
  ∀ (s : State) (start stop : Nat) (byte byte2 : Byte), s.hasBA = true →
    (s.baBuf = [] →
      exec (.txn start stop true byte byte2) s = .next { s with baBuf := [byte], baGrpStart := some start }) ∧
    (s.baBuf ≠ [] → s.baBuf.length ≠ 2 →
      exec (.txn start stop true byte byte2) s = .next { s with baBuf := s.baBuf ++ [byte] }) ∧
    (∀ b0 b1 grp, s.baBuf = [b0, b1] → s.baGrpStart = some grp →
      exec (.txn start stop true byte byte2) s =
        .next { s with
          baBuf := [],
          baOut := s.baOut ++
            [⟨.rgb, grp, stop, BitVec.ofNat 24 (b0.toNat * 65536 + b1.toNat * 256 + byte.toNat)⟩] })

/-- R108 case 5: `byte2` is never read, and `byte` is not read when the transaction is not DATA. -/
def Obligations.SecondaryByteIsNeverRead : Prop :=
  ∀ (s : State) (start stop : Nat) (isData : Bool) (byte byte' byte2 byte2' : Byte),
    exec (.txn start stop isData byte byte2) s = exec (.txn start stop isData byte byte2') s ∧
    exec (.txn start stop false byte byte2) s = exec (.txn start stop false byte' byte2') s

/-- R40, R106 to R108: over any list of transactions, the BA's records are those of every three DATA bytes in order,
and the one or two left over stay in the buffer. -/
def Obligations.BaStreamIsTheTriplesOfDataBytes : Prop :=
  ∀ (xs : List Transaction) (s : State), s.hasBA = true → s.baBuf = [] →
    ∃ t, execAll (xs.map Transaction.op) s = .next t ∧
      t.baOut = s.baOut ++ triples (xs.filter (·.isData)) ∧ t.baBuf = leftOver (xs.filter (·.isData)) ∧
      SameEtd s t ∧ t.etdOut = s.etdOut

/-! ## Units, streams, invariants -/

/-- R10: no operation of one unit writes the registers or the stream of the other, or the build parameter. -/
def Obligations.UnitsDoNotWriteEachOther : Prop :=
  ∀ (i : Instr) (s t : State), s.InOrder i → exec i s = .next t →
    SameHost s t ∧ (i.unit = .etd → SameBa s t ∧ t.baOut = s.baOut) ∧
      (i.unit = .ba → SameEtd s t ∧ t.etdOut = s.etdOut)

/-- R10: no operation of one unit reads the registers of the other. -/
def Obligations.UnitsDoNotReadEachOther : Prop :=
  ∀ (i : Instr) (s s' t : State), s.InOrder i → exec i s = .next t →
    (i.unit = .etd → SameEtd s s' → s'.etdOut = s.etdOut →
      ∃ t', exec i s' = .next t' ∧ SameEtd t t' ∧ t'.etdOut = t.etdOut) ∧
    (i.unit = .ba → SameBa s s' → s'.hasBA = s.hasBA → s'.baOut = s.baOut →
      ∃ t', exec i s' = .next t' ∧ SameBa t t' ∧ t'.baOut = t.baOut)

/-- R10, R31: any interleaving of ETD and BA operations gives each unit's registers and stream as its own operations
alone give them. -/
def Obligations.InterleavingDoesNotMatter : Prop :=
  ∀ (ops : List Instr) (s t : State), orderedFrom s.lastIdx ops = true → execAll ops s = .next t →
    ∃ u v, execAll (ops.filter fun i => i.unit = .etd) s = .next u ∧ SameEtd t u ∧ u.etdOut = t.etdOut ∧
      execAll (ops.filter fun i => i.unit = .ba) s = .next v ∧ SameBa t v ∧ v.baOut = t.baOut

/-- R31: a step appends to the two streams and withdraws, changes and reorders nothing, also at a fault, INIT, BAINIT
and power-on reset. -/
def Obligations.StreamsOnlyGrow : Prop :=
  ∀ s t : State, step s = .next t → s.etdOut <+: t.etdOut ∧ s.baOut <+: t.baOut

/-- R31, R53: every step keeps the forms of the records in both streams. -/
def Obligations.RecordFormsAreKept : Prop :=
  ∀ s t : State, StreamForms s → step s = .next t → StreamForms t

/-- R33 point 5: every step keeps that each RESET record follows the BIT record that ends where it starts. -/
def Obligations.ResetRecordsFollowBitRecords : Prop :=
  ∀ s t : State, ResetsFollowBits s.etdOut → step s = .next t → ResetsFollowBits t.etdOut

/-- R23, R26 (which the spec marks derived): every step keeps the invariant of the machine. -/
def Obligations.EveryStepKeepsTheInvariant : Prop :=
  ∀ s t : State, Inv s → step s = .next t → Inv t

/-- The invariant holds at reset (R28). -/
def Obligations.InvariantHoldsAtReset : Prop := Inv State.reset

/-- R33 points 1 to 3 (which the spec marks derived): within one session, the start indices of each kind
of record strictly increase, and RGB intervals do not overlap. -/
def Obligations.StartIndicesIncreaseWithinSession : Prop :=
  ∀ (s t : State) (k : Nat), s.EtdAtReset → s.lastIdx = none → (∀ x ∈ s.input, x.beginsSession = false) →
    runSteps k s = .next t → StartsIncrease (newEtd s t)

/-- R153: the only records that do not end after they start are BIT records, of bit 0, that a RESET marker on a
falling edge emits. -/
def Obligations.OnlyFallingEdgeMarkersReverseRecords : Prop :=
  ∀ (s t : State) (idx : Nat) (lvl : Bool), Inv s → s.Precedes idx → exec (.sample idx lvl) s = .next t →
    ∀ r ∈ newEtd s t, r.stop ≤ r.start →
      r.kind = .bit ∧ r.data = 0 ∧ s.prev = some true ∧ lvl = false ∧ ∃ fall, s.ResetDue idx lvl fall

/-- R84, R86, R87, R96 (1), (4): a train of pulses that the duty rule can tell apart, begun on a quiet line, decodes to
its bits: one BIT record per pulse and one pixel per 24 of them, in RGB order, each pixel abutting the next. -/
def Obligations.PulseTrainDecodesToItsBits : Prop :=
  ∀ (s : State) (period h1 h0 start : Nat) (vs : List Bool), s.Running → s.Precedes start →
    s.prev = some false → s.acc = [] → s.pktIdx = none → s.riseIdx = none →
    (s.fallIdx = none ∨ s.inReset = true) →
    0 < h0 → h0 < period → h1 < period → 2 * h0 ≤ period → period < 2 * h1 →
    (period + h1) * 1000000 ≤ 50 * s.samplerate →
    ∃ t, execAll (pulseTrain period h1 h0 start vs ++ [.sample (start + vs.length * period) true]) s = .next t ∧
      ofKind .bit (newEtd s t) = (List.range vs.length).map (trainBit period start vs) ∧
      ofKind .rgb (newEtd s t) = (List.range (vs.length / 24)).map (trainPixel period start vs) ∧
      ofKind .reset (newEtd s t) = [] ∧ t.acc = vs.drop (24 * (vs.length / 24)) ∧ t.fault = 0#2

/-! ## Decoding and the step -/

/-- R45 to R47: decoding the bundle of a well-formed operation gives it back, whatever its operands. -/
def Obligations.DecodeOfEncodeIsTheOperation : Prop :=
  ∀ i : Instr, i.wellFormed = true → decode (encode i) = .ok i

/-- R46, R47: what a bundle decodes to is well formed, has its code, and is encoded by a bundle of the same meaning. -/
def Obligations.DecodedOperationsAreWellFormed : Prop :=
  ∀ (b : Bundle) (i : Instr), decode b = .ok i →
    i.wellFormed = true ∧ i.opcode = b.op ∧ decode (encode i) = .ok i

/-- R45: a field not listed for an operation is ignored by it. -/
def Obligations.UnlistedFieldsAreIgnored : Prop :=
  ∀ a b : Bundle, a.op = b.op →
    (a.op = 1#3 → a.rate = b.rate) → (a.op = 2#3 → a.idx = b.idx ∧ a.lvl = b.lvl) →
    (a.op = 5#3 → a.idx = b.idx ∧ a.endIdx = b.endIdx ∧ a.isData = b.isData ∧ a.byte = b.byte ∧
      a.byte2 = b.byte2) →
    decode a = decode b

/-- R46: bundles written out from the spec's table and vectors (95_test_vectors.md P1, P2) decode to their
operations. -/
def Obligations.BundlesOfTheSpecDecode : Prop :=
  decode (Bundle.ofOp 0) = .ok .init ∧
  decode { Bundle.ofOp 1 with rate := 20000000 } = .ok (.setrate 20000000) ∧
  decode { Bundle.ofOp 2 with idx := 35, lvl := true } = .ok (.sample 35 true) ∧
  decode (Bundle.ofOp 4) = .ok .bainit ∧
  decode { Bundle.ofOp 5 with idx := 9, endIdx := 17, isData := true, byte := 0x34 } =
    .ok (.txn 9 17 true 0x34 0) ∧
  decode (Bundle.ofOp 3) = .error (.reservedCode 3)

/-- R56, the model's side of it (notes/assumptions/3.md): the step refuses the reserved codes 3, 6, 7, and 4 and 5 when
the BA is absent, by name; it refuses no other code so. -/
def Obligations.ReservedCodesAreRefused : Prop :=
  ∀ (s : State) (b : Bundle) (rest : List HostItem), s.input = .cmd b :: rest →
    ((b.op = 3#3 ∨ b.op = 6#3 ∨ b.op = 7#3 ∨ (s.hasBA = false ∧ (b.op = 4#3 ∨ b.op = 5#3))) ↔
      ∃ op, step s = .refused (.reservedOperation op)) ∧
    (∀ op, step s = .refused (.reservedOperation op) → op = b.op)

/-- R135 (which the spec marks derived): every operation is accepted in every state, the BA's where
the unit is present. -/
def Obligations.EveryOperationIsAccepted : Prop :=
  ∀ (i : Instr) (s : State), s.InOrder i → (i.unit = .ba → s.hasBA = true) → ∃ t, exec i s = .next t

/-- A step runs the operation its bundle decodes to, in the state in which the host's item has been taken. -/
def Obligations.StepRunsDecodedOperation : Prop :=
  ∀ (s : State) (b : Bundle) (rest : List HostItem) (i : Instr), s.input = .cmd b :: rest → decode b = .ok i →
    inOrder i s.lastIdx = true →
    step s = exec i { s with input := rest, lastIdx := noteIndex i s.lastIdx }

/-- With nothing presented the state stays as it is (R65, R146); that this is a step is the model's choice
(notes/assumptions/2.md). -/
def Obligations.StepWithNothingPresentedChangesNothing : Prop :=
  ∀ s : State, s.input = [] → step s = .next s

/-- R147: the step refuses a SAMPLE whose index does not exceed the last one of its session, and only such. The place
of the check is the model's choice (notes/assumptions/6.md). -/
def Obligations.UnorderedSamplesAreRefused : Prop :=
  ∀ (s : State) (b : Bundle) (rest : List HostItem), s.input = .cmd b :: rest →
    (step s = .refused .unorderedIndex ↔ b.op = 2#3 ∧ ∃ last, s.lastIdx = some last ∧ b.idx.toNat ≤ last)

/-- `withFetchWord` places a word of the opcode table so that the next step runs it (notes/assumptions/11.md). -/
def Obligations.PlacedWordRunsNext : Prop :=
  ∀ (s : State) (nbits w : Nat) (i : Instr), decodeTableWord nbits w = some i →
    step (s.withFetchWord nbits w) = exec i { s with lastIdx := noteIndex i none }

/-- R60: PULSE from a low line is a rising edge at `t` and a falling edge at `t + h`. -/
def Obligations.PulseIsARiseAndAFall : Prop :=
  ∀ (s : State) (t h : Nat), 0 < h → s.Precedes t → s.Running → s.prev = some false → s.riseIdx = none →
    s.NoResetDue (t + h) false →
    execAll (TextOp.pulse t h).expand s =
      .next { s with
        prev := some false, riseIdx := some t, pktIdx := some (s.pktIdx.getD t), fallIdx := some (t + h),
        inReset := false }
end

