-- ==== Sys2Proof/Laws/State.lean ====
section
/-! SUPPORT. What each named update does to each field of State: one lemma per field per update. -/

namespace Sys2Proof.Machine

@[simp] theorem emitEtd_samplerate (r : Record) (s : State) : (emitEtd r s).samplerate = s.samplerate := rfl
@[simp] theorem emitEtd_fault (r : Record) (s : State) : (emitEtd r s).fault = s.fault := rfl
@[simp] theorem emitEtd_prev (r : Record) (s : State) : (emitEtd r s).prev = s.prev := rfl
@[simp] theorem emitEtd_acc (r : Record) (s : State) : (emitEtd r s).acc = s.acc := rfl
@[simp] theorem emitEtd_pktIdx (r : Record) (s : State) : (emitEtd r s).pktIdx = s.pktIdx := rfl
@[simp] theorem emitEtd_riseIdx (r : Record) (s : State) : (emitEtd r s).riseIdx = s.riseIdx := rfl
@[simp] theorem emitEtd_fallIdx (r : Record) (s : State) : (emitEtd r s).fallIdx = s.fallIdx := rfl
@[simp] theorem emitEtd_inReset (r : Record) (s : State) : (emitEtd r s).inReset = s.inReset := rfl
@[simp] theorem emitEtd_baBuf (r : Record) (s : State) : (emitEtd r s).baBuf = s.baBuf := rfl
@[simp] theorem emitEtd_baGrpStart (r : Record) (s : State) : (emitEtd r s).baGrpStart = s.baGrpStart := rfl
@[simp] theorem emitEtd_hasBA (r : Record) (s : State) : (emitEtd r s).hasBA = s.hasBA := rfl
@[simp] theorem emitEtd_etdOut (r : Record) (s : State) : (emitEtd r s).etdOut = s.etdOut ++ [r] := rfl
@[simp] theorem emitEtd_baOut (r : Record) (s : State) : (emitEtd r s).baOut = s.baOut := rfl
@[simp] theorem emitEtd_input (r : Record) (s : State) : (emitEtd r s).input = s.input := rfl
@[simp] theorem emitEtd_lastIdx (r : Record) (s : State) : (emitEtd r s).lastIdx = s.lastIdx := rfl

@[simp] theorem emitBa_samplerate (r : Record) (s : State) : (emitBa r s).samplerate = s.samplerate := rfl
@[simp] theorem emitBa_fault (r : Record) (s : State) : (emitBa r s).fault = s.fault := rfl
@[simp] theorem emitBa_prev (r : Record) (s : State) : (emitBa r s).prev = s.prev := rfl
@[simp] theorem emitBa_acc (r : Record) (s : State) : (emitBa r s).acc = s.acc := rfl
@[simp] theorem emitBa_pktIdx (r : Record) (s : State) : (emitBa r s).pktIdx = s.pktIdx := rfl
@[simp] theorem emitBa_riseIdx (r : Record) (s : State) : (emitBa r s).riseIdx = s.riseIdx := rfl
@[simp] theorem emitBa_fallIdx (r : Record) (s : State) : (emitBa r s).fallIdx = s.fallIdx := rfl
@[simp] theorem emitBa_inReset (r : Record) (s : State) : (emitBa r s).inReset = s.inReset := rfl
@[simp] theorem emitBa_baBuf (r : Record) (s : State) : (emitBa r s).baBuf = s.baBuf := rfl
@[simp] theorem emitBa_baGrpStart (r : Record) (s : State) : (emitBa r s).baGrpStart = s.baGrpStart := rfl
@[simp] theorem emitBa_hasBA (r : Record) (s : State) : (emitBa r s).hasBA = s.hasBA := rfl
@[simp] theorem emitBa_etdOut (r : Record) (s : State) : (emitBa r s).etdOut = s.etdOut := rfl
@[simp] theorem emitBa_baOut (r : Record) (s : State) : (emitBa r s).baOut = s.baOut ++ [r] := rfl
@[simp] theorem emitBa_input (r : Record) (s : State) : (emitBa r s).input = s.input := rfl
@[simp] theorem emitBa_lastIdx (r : Record) (s : State) : (emitBa r s).lastIdx = s.lastIdx := rfl

@[simp] theorem latchFault_samplerate (c : BitVec 2) (s : State) : (latchFault c s).samplerate = s.samplerate := rfl
@[simp] theorem latchFault_fault (c : BitVec 2) (s : State) : (latchFault c s).fault = c := rfl
@[simp] theorem latchFault_prev (c : BitVec 2) (s : State) : (latchFault c s).prev = s.prev := rfl
@[simp] theorem latchFault_acc (c : BitVec 2) (s : State) : (latchFault c s).acc = s.acc := rfl
@[simp] theorem latchFault_pktIdx (c : BitVec 2) (s : State) : (latchFault c s).pktIdx = s.pktIdx := rfl
@[simp] theorem latchFault_riseIdx (c : BitVec 2) (s : State) : (latchFault c s).riseIdx = s.riseIdx := rfl
@[simp] theorem latchFault_fallIdx (c : BitVec 2) (s : State) : (latchFault c s).fallIdx = s.fallIdx := rfl
@[simp] theorem latchFault_inReset (c : BitVec 2) (s : State) : (latchFault c s).inReset = s.inReset := rfl
@[simp] theorem latchFault_baBuf (c : BitVec 2) (s : State) : (latchFault c s).baBuf = s.baBuf := rfl
@[simp] theorem latchFault_baGrpStart (c : BitVec 2) (s : State) : (latchFault c s).baGrpStart = s.baGrpStart := rfl
@[simp] theorem latchFault_hasBA (c : BitVec 2) (s : State) : (latchFault c s).hasBA = s.hasBA := rfl
@[simp] theorem latchFault_etdOut (c : BitVec 2) (s : State) : (latchFault c s).etdOut = s.etdOut := rfl
@[simp] theorem latchFault_baOut (c : BitVec 2) (s : State) : (latchFault c s).baOut = s.baOut := rfl
@[simp] theorem latchFault_input (c : BitVec 2) (s : State) : (latchFault c s).input = s.input := rfl
@[simp] theorem latchFault_lastIdx (c : BitVec 2) (s : State) : (latchFault c s).lastIdx = s.lastIdx := rfl

@[simp] theorem initEtd_samplerate (s : State) : (initEtd s).samplerate = 0 := rfl
@[simp] theorem initEtd_fault (s : State) : (initEtd s).fault = 0#2 := rfl
@[simp] theorem initEtd_prev (s : State) : (initEtd s).prev = none := rfl
@[simp] theorem initEtd_acc (s : State) : (initEtd s).acc = [] := rfl
@[simp] theorem initEtd_pktIdx (s : State) : (initEtd s).pktIdx = none := rfl
@[simp] theorem initEtd_riseIdx (s : State) : (initEtd s).riseIdx = none := rfl
@[simp] theorem initEtd_fallIdx (s : State) : (initEtd s).fallIdx = none := rfl
@[simp] theorem initEtd_inReset (s : State) : (initEtd s).inReset = false := rfl
@[simp] theorem initEtd_baBuf (s : State) : (initEtd s).baBuf = s.baBuf := rfl
@[simp] theorem initEtd_baGrpStart (s : State) : (initEtd s).baGrpStart = s.baGrpStart := rfl
@[simp] theorem initEtd_hasBA (s : State) : (initEtd s).hasBA = s.hasBA := rfl
@[simp] theorem initEtd_etdOut (s : State) : (initEtd s).etdOut = s.etdOut := rfl
@[simp] theorem initEtd_baOut (s : State) : (initEtd s).baOut = s.baOut := rfl
@[simp] theorem initEtd_input (s : State) : (initEtd s).input = s.input := rfl
@[simp] theorem initEtd_lastIdx (s : State) : (initEtd s).lastIdx = s.lastIdx := rfl

@[simp] theorem initBa_samplerate (s : State) : (initBa s).samplerate = s.samplerate := rfl
@[simp] theorem initBa_fault (s : State) : (initBa s).fault = s.fault := rfl
@[simp] theorem initBa_prev (s : State) : (initBa s).prev = s.prev := rfl
@[simp] theorem initBa_acc (s : State) : (initBa s).acc = s.acc := rfl
@[simp] theorem initBa_pktIdx (s : State) : (initBa s).pktIdx = s.pktIdx := rfl
@[simp] theorem initBa_riseIdx (s : State) : (initBa s).riseIdx = s.riseIdx := rfl
@[simp] theorem initBa_fallIdx (s : State) : (initBa s).fallIdx = s.fallIdx := rfl
@[simp] theorem initBa_inReset (s : State) : (initBa s).inReset = s.inReset := rfl
@[simp] theorem initBa_baBuf (s : State) : (initBa s).baBuf = [] := rfl
@[simp] theorem initBa_baGrpStart (s : State) : (initBa s).baGrpStart = none := rfl
@[simp] theorem initBa_hasBA (s : State) : (initBa s).hasBA = s.hasBA := rfl
@[simp] theorem initBa_etdOut (s : State) : (initBa s).etdOut = s.etdOut := rfl
@[simp] theorem initBa_baOut (s : State) : (initBa s).baOut = s.baOut := rfl
@[simp] theorem initBa_input (s : State) : (initBa s).input = s.input := rfl
@[simp] theorem initBa_lastIdx (s : State) : (initBa s).lastIdx = s.lastIdx := rfl

@[simp] theorem appendBit_samplerate (b : Bool) (s : State) : (appendBit b s).samplerate = s.samplerate := rfl
@[simp] theorem appendBit_fault (b : Bool) (s : State) : (appendBit b s).fault = s.fault := rfl
@[simp] theorem appendBit_prev (b : Bool) (s : State) : (appendBit b s).prev = s.prev := rfl
@[simp] theorem appendBit_acc (b : Bool) (s : State) : (appendBit b s).acc = s.acc ++ [b] := rfl
@[simp] theorem appendBit_pktIdx (b : Bool) (s : State) : (appendBit b s).pktIdx = s.pktIdx := rfl
@[simp] theorem appendBit_riseIdx (b : Bool) (s : State) : (appendBit b s).riseIdx = s.riseIdx := rfl
@[simp] theorem appendBit_fallIdx (b : Bool) (s : State) : (appendBit b s).fallIdx = s.fallIdx := rfl
@[simp] theorem appendBit_inReset (b : Bool) (s : State) : (appendBit b s).inReset = s.inReset := rfl
@[simp] theorem appendBit_baBuf (b : Bool) (s : State) : (appendBit b s).baBuf = s.baBuf := rfl
@[simp] theorem appendBit_baGrpStart (b : Bool) (s : State) : (appendBit b s).baGrpStart = s.baGrpStart := rfl
@[simp] theorem appendBit_hasBA (b : Bool) (s : State) : (appendBit b s).hasBA = s.hasBA := rfl
@[simp] theorem appendBit_etdOut (b : Bool) (s : State) : (appendBit b s).etdOut = s.etdOut := rfl
@[simp] theorem appendBit_baOut (b : Bool) (s : State) : (appendBit b s).baOut = s.baOut := rfl
@[simp] theorem appendBit_input (b : Bool) (s : State) : (appendBit b s).input = s.input := rfl
@[simp] theorem appendBit_lastIdx (b : Bool) (s : State) : (appendBit b s).lastIdx = s.lastIdx := rfl

@[simp] theorem startBit_samplerate (idx : Nat) (s : State) : (startBit idx s).samplerate = s.samplerate := rfl
@[simp] theorem startBit_fault (idx : Nat) (s : State) : (startBit idx s).fault = s.fault := rfl
@[simp] theorem startBit_prev (idx : Nat) (s : State) : (startBit idx s).prev = s.prev := rfl
@[simp] theorem startBit_acc (idx : Nat) (s : State) : (startBit idx s).acc = s.acc := rfl
@[simp] theorem startBit_pktIdx (idx : Nat) (s : State) : (startBit idx s).pktIdx = some (s.pktIdx.getD idx) := rfl
@[simp] theorem startBit_riseIdx (idx : Nat) (s : State) : (startBit idx s).riseIdx = some idx := rfl
@[simp] theorem startBit_fallIdx (idx : Nat) (s : State) : (startBit idx s).fallIdx = s.fallIdx := rfl
@[simp] theorem startBit_inReset (idx : Nat) (s : State) : (startBit idx s).inReset = s.inReset := rfl
@[simp] theorem startBit_baBuf (idx : Nat) (s : State) : (startBit idx s).baBuf = s.baBuf := rfl
@[simp] theorem startBit_baGrpStart (idx : Nat) (s : State) : (startBit idx s).baGrpStart = s.baGrpStart := rfl
@[simp] theorem startBit_hasBA (idx : Nat) (s : State) : (startBit idx s).hasBA = s.hasBA := rfl
@[simp] theorem startBit_etdOut (idx : Nat) (s : State) : (startBit idx s).etdOut = s.etdOut := rfl
@[simp] theorem startBit_baOut (idx : Nat) (s : State) : (startBit idx s).baOut = s.baOut := rfl
@[simp] theorem startBit_input (idx : Nat) (s : State) : (startBit idx s).input = s.input := rfl
@[simp] theorem startBit_lastIdx (idx : Nat) (s : State) : (startBit idx s).lastIdx = s.lastIdx := rfl

@[simp] theorem endPulse_samplerate (idx : Nat) (s : State) : (endPulse idx s).samplerate = s.samplerate := rfl
@[simp] theorem endPulse_fault (idx : Nat) (s : State) : (endPulse idx s).fault = s.fault := rfl
@[simp] theorem endPulse_prev (idx : Nat) (s : State) : (endPulse idx s).prev = s.prev := rfl
@[simp] theorem endPulse_acc (idx : Nat) (s : State) : (endPulse idx s).acc = s.acc := rfl
@[simp] theorem endPulse_pktIdx (idx : Nat) (s : State) : (endPulse idx s).pktIdx = s.pktIdx := rfl
@[simp] theorem endPulse_riseIdx (idx : Nat) (s : State) : (endPulse idx s).riseIdx = s.riseIdx := rfl
@[simp] theorem endPulse_fallIdx (idx : Nat) (s : State) : (endPulse idx s).fallIdx = some idx := rfl
@[simp] theorem endPulse_inReset (idx : Nat) (s : State) : (endPulse idx s).inReset = false := rfl
@[simp] theorem endPulse_baBuf (idx : Nat) (s : State) : (endPulse idx s).baBuf = s.baBuf := rfl
@[simp] theorem endPulse_baGrpStart (idx : Nat) (s : State) : (endPulse idx s).baGrpStart = s.baGrpStart := rfl
@[simp] theorem endPulse_hasBA (idx : Nat) (s : State) : (endPulse idx s).hasBA = s.hasBA := rfl
@[simp] theorem endPulse_etdOut (idx : Nat) (s : State) : (endPulse idx s).etdOut = s.etdOut := rfl
@[simp] theorem endPulse_baOut (idx : Nat) (s : State) : (endPulse idx s).baOut = s.baOut := rfl
@[simp] theorem endPulse_input (idx : Nat) (s : State) : (endPulse idx s).input = s.input := rfl
@[simp] theorem endPulse_lastIdx (idx : Nat) (s : State) : (endPulse idx s).lastIdx = s.lastIdx := rfl

@[simp] theorem pushByte_samplerate (b : Byte) (s : State) : (pushByte b s).samplerate = s.samplerate := rfl
@[simp] theorem pushByte_fault (b : Byte) (s : State) : (pushByte b s).fault = s.fault := rfl
@[simp] theorem pushByte_prev (b : Byte) (s : State) : (pushByte b s).prev = s.prev := rfl
@[simp] theorem pushByte_acc (b : Byte) (s : State) : (pushByte b s).acc = s.acc := rfl
@[simp] theorem pushByte_pktIdx (b : Byte) (s : State) : (pushByte b s).pktIdx = s.pktIdx := rfl
@[simp] theorem pushByte_riseIdx (b : Byte) (s : State) : (pushByte b s).riseIdx = s.riseIdx := rfl
@[simp] theorem pushByte_fallIdx (b : Byte) (s : State) : (pushByte b s).fallIdx = s.fallIdx := rfl
@[simp] theorem pushByte_inReset (b : Byte) (s : State) : (pushByte b s).inReset = s.inReset := rfl
@[simp] theorem pushByte_baBuf (b : Byte) (s : State) : (pushByte b s).baBuf = s.baBuf ++ [b] := rfl
@[simp] theorem pushByte_baGrpStart (b : Byte) (s : State) : (pushByte b s).baGrpStart = s.baGrpStart := rfl
@[simp] theorem pushByte_hasBA (b : Byte) (s : State) : (pushByte b s).hasBA = s.hasBA := rfl
@[simp] theorem pushByte_etdOut (b : Byte) (s : State) : (pushByte b s).etdOut = s.etdOut := rfl
@[simp] theorem pushByte_baOut (b : Byte) (s : State) : (pushByte b s).baOut = s.baOut := rfl
@[simp] theorem pushByte_input (b : Byte) (s : State) : (pushByte b s).input = s.input := rfl
@[simp] theorem pushByte_lastIdx (b : Byte) (s : State) : (pushByte b s).lastIdx = s.lastIdx := rfl

@[simp] theorem takeOp_samplerate (i : Instr) (rest : List HostItem) (s : State) : (takeOp i rest s).samplerate = s.samplerate := rfl
@[simp] theorem takeOp_fault (i : Instr) (rest : List HostItem) (s : State) : (takeOp i rest s).fault = s.fault := rfl
@[simp] theorem takeOp_prev (i : Instr) (rest : List HostItem) (s : State) : (takeOp i rest s).prev = s.prev := rfl
@[simp] theorem takeOp_acc (i : Instr) (rest : List HostItem) (s : State) : (takeOp i rest s).acc = s.acc := rfl
@[simp] theorem takeOp_pktIdx (i : Instr) (rest : List HostItem) (s : State) : (takeOp i rest s).pktIdx = s.pktIdx := rfl
@[simp] theorem takeOp_riseIdx (i : Instr) (rest : List HostItem) (s : State) : (takeOp i rest s).riseIdx = s.riseIdx := rfl
@[simp] theorem takeOp_fallIdx (i : Instr) (rest : List HostItem) (s : State) : (takeOp i rest s).fallIdx = s.fallIdx := rfl
@[simp] theorem takeOp_inReset (i : Instr) (rest : List HostItem) (s : State) : (takeOp i rest s).inReset = s.inReset := rfl
@[simp] theorem takeOp_baBuf (i : Instr) (rest : List HostItem) (s : State) : (takeOp i rest s).baBuf = s.baBuf := rfl
@[simp] theorem takeOp_baGrpStart (i : Instr) (rest : List HostItem) (s : State) : (takeOp i rest s).baGrpStart = s.baGrpStart := rfl
@[simp] theorem takeOp_hasBA (i : Instr) (rest : List HostItem) (s : State) : (takeOp i rest s).hasBA = s.hasBA := rfl
@[simp] theorem takeOp_etdOut (i : Instr) (rest : List HostItem) (s : State) : (takeOp i rest s).etdOut = s.etdOut := rfl
@[simp] theorem takeOp_baOut (i : Instr) (rest : List HostItem) (s : State) : (takeOp i rest s).baOut = s.baOut := rfl
@[simp] theorem takeOp_input (i : Instr) (rest : List HostItem) (s : State) : (takeOp i rest s).input = rest := rfl
@[simp] theorem takeOp_lastIdx (i : Instr) (rest : List HostItem) (s : State) : (takeOp i rest s).lastIdx = noteIndex i s.lastIdx := rfl

@[simp] theorem takePowerOn_samplerate (rest : List HostItem) (s : State) : (takePowerOn rest s).samplerate = s.samplerate := rfl
@[simp] theorem takePowerOn_fault (rest : List HostItem) (s : State) : (takePowerOn rest s).fault = s.fault := rfl
@[simp] theorem takePowerOn_prev (rest : List HostItem) (s : State) : (takePowerOn rest s).prev = s.prev := rfl
@[simp] theorem takePowerOn_acc (rest : List HostItem) (s : State) : (takePowerOn rest s).acc = s.acc := rfl
@[simp] theorem takePowerOn_pktIdx (rest : List HostItem) (s : State) : (takePowerOn rest s).pktIdx = s.pktIdx := rfl
@[simp] theorem takePowerOn_riseIdx (rest : List HostItem) (s : State) : (takePowerOn rest s).riseIdx = s.riseIdx := rfl
@[simp] theorem takePowerOn_fallIdx (rest : List HostItem) (s : State) : (takePowerOn rest s).fallIdx = s.fallIdx := rfl
@[simp] theorem takePowerOn_inReset (rest : List HostItem) (s : State) : (takePowerOn rest s).inReset = s.inReset := rfl
@[simp] theorem takePowerOn_baBuf (rest : List HostItem) (s : State) : (takePowerOn rest s).baBuf = s.baBuf := rfl
@[simp] theorem takePowerOn_baGrpStart (rest : List HostItem) (s : State) : (takePowerOn rest s).baGrpStart = s.baGrpStart := rfl
@[simp] theorem takePowerOn_hasBA (rest : List HostItem) (s : State) : (takePowerOn rest s).hasBA = s.hasBA := rfl
@[simp] theorem takePowerOn_etdOut (rest : List HostItem) (s : State) : (takePowerOn rest s).etdOut = s.etdOut := rfl
@[simp] theorem takePowerOn_baOut (rest : List HostItem) (s : State) : (takePowerOn rest s).baOut = s.baOut := rfl
@[simp] theorem takePowerOn_input (rest : List HostItem) (s : State) : (takePowerOn rest s).input = rest := rfl
@[simp] theorem takePowerOn_lastIdx (rest : List HostItem) (s : State) : (takePowerOn rest s).lastIdx = none := rfl

end Sys2Proof.Machine
end

