-- ==== Sys2Proof/Laws/Flags.lean ====
section
/-! SUPPORT. What each condition of a SAMPLE means as a proposition, and the value lemmas of the words. -/

namespace Sys2Proof.Machine

theorem gapExceeded_iff (gap : Int) (rate : Nat) :
    gapExceeded gap rate = true ↔ gap * 1000000 > 50 * (rate : Int) := by
  simp [gapExceeded, Config.usPerSec, Config.resetGapUs]

theorem highTimeBit_iff (dur : Int) (rate : Nat) :
    highTimeBit dur rate = true ↔ dur * 1000000000 ≥ 625 * (rate : Int) := by
  simp [highTimeBit, Config.nsPerSec, Config.bit1HighNs]

theorem dutyBit_iff (duty period : Int) : dutyBit duty period = true ↔ 2 * duty > period := by
  simp [dutyBit, Config.dutyDen, Config.dutyNum]

theorem highTimeBit_negative {dur : Int} {rate : Nat} (h : dur < 0) : highTimeBit dur rate = false := by
  rw [Bool.eq_false_iff, ne_eq, highTimeBit_iff]; omega

theorem risingEdge_iff (prev lvl : Bool) : risingEdge prev lvl = true ↔ prev = false ∧ lvl = true := by
  cases prev <;> cases lvl <;> simp [risingEdge]

theorem fallingEdge_iff (prev lvl : Bool) : fallingEdge prev lvl = true ↔ prev = true ∧ lvl = false := by
  cases prev <;> cases lvl <;> simp [fallingEdge]

theorem resetDetected_iff (idx : Nat) (lvl : Bool) (s : State) :
    resetDetected idx lvl s = true ↔ ∃ fall, s.ResetDue idx lvl fall := by
  unfold resetDetected
  constructor
  · intro h
    split at h
    · cases h
    · rename_i fall hf
      simp only [Bool.and_eq_true, Bool.not_eq_true', gapExceeded_iff, indexDiff] at h
      exact ⟨fall, h.1.1, h.1.2, hf, h.2⟩
  · rintro ⟨fall, h⟩
    simp [h.fallEdge, h.low, h.notYet, gapExceeded_iff, indexDiff]
    simpa using h.gap

theorem resetDetected_false_iff (idx : Nat) (lvl : Bool) (s : State) :
    resetDetected idx lvl s = false ↔ s.NoResetDue idx lvl := by
  rw [← Bool.not_eq_true, resetDetected_iff, State.NoResetDue, not_exists]

theorem bitData_eq (b : Bool) : bitData b = if b then 1 else 0 := by
  cases b <;> decide

theorem accValue_append (acc : List Bool) (b : Bool) :
    accValue (acc ++ [b]) = 2 * accValue acc + b.toNat := by
  simp [accValue]

theorem accValue_lt (acc : List Bool) : accValue acc < 2 ^ acc.length := by
  induction acc using List.reverseRecOn with
  | nil => simp [accValue]
  | append_singleton acc b ih =>
    rw [accValue_append, List.length_append, List.length_singleton, Nat.pow_succ]
    have := b.toNat_le
    omega

theorem fitsIndex_iff (n : Nat) : fitsIndex n = true ↔ n < 18446744073709551616 := by
  simp [fitsIndex, Config.idxW]

theorem fitsRate_iff (n : Nat) : fitsRate n = true ↔ n < 18446744073709551616 := by
  simp [fitsRate, Config.rateW]

/-- The bit received `k`-th from the last stands at place `k` of the accumulator's value (R37). -/
theorem accValue_testBit (acc : List Bool) (k : Nat) (h : k < acc.length) :
    (accValue acc).testBit k = acc[acc.length - 1 - k] := by
  induction acc using List.reverseRecOn generalizing k with
  | nil => simp at h
  | append_singleton acc b ih =>
    rw [accValue_append]
    cases k with
    | zero => cases b <;> simp [Nat.testBit_zero, Nat.add_mod]
    | succ k =>
      have hb : (2 * accValue acc + b.toNat) / 2 = accValue acc := by have := b.toNat_le; omega
      simp only [List.length_append, List.length_singleton] at h
      rw [Nat.testBit_succ, hb, ih k (by omega), List.getElem_append_left (by simp; omega)]
      congr 1; simp; omega

/-- The accumulator's value as the sum R37 writes. -/
theorem accValue_sum (acc : List Bool) :
    accValue acc = ((List.range acc.length).map fun k =>
      (if acc[k]? = some true then 1 else 0) * 2 ^ (acc.length - 1 - k)).sum := by
  induction acc using List.reverseRecOn with
  | nil => simp [accValue]
  | append_singleton acc b ih =>
    rw [accValue_append, List.length_append, List.length_singleton, List.range_succ, List.map_append,
      List.sum_append, ih, ← List.sum_map_mul_left]
    congr 1
    · congr 1
      apply List.map_congr_left
      intro k hk
      have hk : k < acc.length := by simpa using hk
      rw [List.getElem?_append_left hk]
      have : acc.length + 1 - 1 - k = (acc.length - 1 - k) + 1 := by omega
      rw [this, Nat.pow_succ]
      ring
    · cases b <;> simp

theorem wireSum_eq {bits : List Bool} (h : bits.length = 24) : accValue bits = wireSum bits := by
  rw [accValue_sum, wireSum, h]

@[simp] theorem readIndex_some (v n : Nat) : readIndex (some v) n = v := rfl

end Sys2Proof.Machine
end

