-- ==== Sys2Proof/Laws/Ops.lean ====
section
/-! SUPPORT. What the shared operations do, each said once: pixel assembly, the RESET path, the edge steps, the BA's
group, and what they leave alone. -/

namespace Sys2Proof.Machine

/-- What no ETD step of a SAMPLE touches: the rate, the fault latch, the BA and the host's side. -/
structure SampleFrame (s t : State) : Prop where
  samplerate : t.samplerate = s.samplerate
  fault      : t.fault = s.fault
  ba         : SameBa s t
  baOut      : t.baOut = s.baOut
  host       : SameHost s t

theorem SampleFrame.refl (s : State) : SampleFrame s s := ⟨rfl, rfl, ⟨rfl, rfl⟩, rfl, ⟨rfl, rfl, rfl⟩⟩

theorem SampleFrame.trans {s t u : State} (h : SampleFrame s t) (k : SampleFrame t u) : SampleFrame s u :=
  ⟨k.1.trans h.1, k.2.trans h.2, ⟨k.ba.1.trans h.ba.1, k.ba.2.trans h.ba.2⟩, k.baOut.trans h.baOut,
    ⟨k.host.1.trans h.host.1, k.host.2.trans h.host.2, k.host.3.trans h.host.3⟩⟩

theorem pixelAssembly_full {boundary : Nat} {s : State} (h : s.acc.length = 24) :
    pixelAssembly boundary s =
      { s with
        acc := [], pktIdx := none,
        etdOut := s.etdOut ++
          [rgbRecord (readIndex s.pktIdx s.etdOut.length) boundary (reorderGrb (wireWord s.acc))] } := by
  simp [pixelAssembly, Config.accBits, h, emitEtd]

theorem pixelAssembly_partial {boundary : Nat} {s : State} (h : s.acc.length ≠ 24) :
    pixelAssembly boundary s = s := by
  simp [pixelAssembly, Config.accBits, h]

/-- Everything pixel assembly can do. -/
theorem pixelAssembly_cases (boundary : Nat) (s : State) :
    (s.acc.length = 24 ∧ pixelAssembly boundary s =
      { s with
        acc := [], pktIdx := none,
        etdOut := s.etdOut ++
          [rgbRecord (readIndex s.pktIdx s.etdOut.length) boundary (reorderGrb (wireWord s.acc))] }) ∨
    (s.acc.length ≠ 24 ∧ pixelAssembly boundary s = s) := by
  by_cases h : s.acc.length = 24
  · exact .inl ⟨h, pixelAssembly_full h⟩
  · exact .inr ⟨h, pixelAssembly_partial h⟩

/-- The pixel record that appending `b` completes, if it does: the records of `pixelAssembly` after `appendBit`. -/
def pixelRecords (b : Bool) (boundary pos : Nat) (s : State) : List Record :=
  if s.acc.length = 23 then
    [rgbRecord (readIndex s.pktIdx pos) boundary (reorderGrb (wireWord (s.acc ++ [b])))]
  else []

/-- The RESET path whole: its records in order, and the registers it clears (R82, R83). -/
theorem resetPath_eq (rise fall idx : Nat) (s : State) :
    resetPath rise fall idx s =
      { s with
        acc := [], pktIdx := none, riseIdx := none, inReset := true,
        etdOut := s.etdOut ++
          (pixelRecords (highTimeBit (indexDiff fall rise) s.samplerate) fall s.etdOut.length s ++
            [bitRecord rise fall (highTimeBit (indexDiff fall rise) s.samplerate), resetRecord fall idx]) } := by
  unfold resetPath pixelRecords
  by_cases h : s.acc.length = 23
  · simp [pixelAssembly, Config.accBits, h, emitEtd, appendBit]
  · simp [pixelAssembly, Config.accBits, h, emitEtd, appendBit]

/-- A rising edge with a pending bit, whole: BIT, the pixel it completes, and the registers (R84, R86). -/
theorem decidePending_some {rise fall idx : Nat} {s : State} (hr : s.riseIdx = some rise)
    (hf : s.fallIdx = some fall) :
    decidePending idx s =
      let b := dutyBit (indexDiff fall rise) (indexDiff idx rise)
      { s with
        acc := if s.acc.length = 23 then [] else s.acc ++ [b],
        pktIdx := if s.acc.length = 23 then none else s.pktIdx,
        etdOut := s.etdOut ++ (bitRecord rise idx b :: pixelRecords b idx (s.etdOut.length + 1) s) } := by
  unfold decidePending pixelRecords
  by_cases h : s.acc.length = 23
  · simp [hr, hf, pixelAssembly, Config.accBits, h, emitEtd, appendBit]
  · simp [hr, hf, pixelAssembly, Config.accBits, h, emitEtd, appendBit]

theorem decidePending_none {idx : Nat} {s : State} (h : s.riseIdx = none ∨ s.fallIdx = none) :
    decidePending idx s = s := by
  unfold decidePending
  split
  · rename_i hr hf; simp [hr, hf] at h
  · rfl

theorem decidePending_frame (idx : Nat) (s : State) : SampleFrame s (decidePending idx s) := by
  cases hr : s.riseIdx with
  | none => rw [decidePending_none (.inl hr)]; exact .refl s
  | some r =>
    cases hf : s.fallIdx with
    | none => rw [decidePending_none (.inr hf)]; exact .refl s
    | some f => rw [decidePending_some hr hf]; exact ⟨rfl, rfl, ⟨rfl, rfl⟩, rfl, ⟨rfl, rfl, rfl⟩⟩

theorem resetPath_frame (rise fall idx : Nat) (s : State) : SampleFrame s (resetPath rise fall idx s) := by
  rw [resetPath_eq]; exact ⟨rfl, rfl, ⟨rfl, rfl⟩, rfl, ⟨rfl, rfl, rfl⟩⟩

theorem edgeSteps_rising (idx : Nat) (s : State) :
    edgeSteps false true idx s = { startBit idx (decidePending idx s) with prev := some true } := rfl

theorem edgeSteps_falling (idx : Nat) (s : State) :
    edgeSteps true false idx s = { endPulse idx s with prev := some false } := rfl

theorem edgeSteps_level (lvl : Bool) (idx : Nat) (s : State) :
    edgeSteps lvl lvl idx s = { s with prev := some lvl } := by cases lvl <;> rfl

theorem edgeSteps_frame (prev lvl : Bool) (idx : Nat) (s : State) :
    SampleFrame s (edgeSteps prev lvl idx s) := by
  cases prev <;> cases lvl
  · exact ⟨rfl, rfl, ⟨rfl, rfl⟩, rfl, ⟨rfl, rfl, rfl⟩⟩
  · exact (decidePending_frame idx s).trans ⟨rfl, rfl, ⟨rfl, rfl⟩, rfl, ⟨rfl, rfl, rfl⟩⟩
  · exact ⟨rfl, rfl, ⟨rfl, rfl⟩, rfl, ⟨rfl, rfl, rfl⟩⟩
  · exact ⟨rfl, rfl, ⟨rfl, rfl⟩, rfl, ⟨rfl, rfl, rfl⟩⟩

theorem edgeSteps_fault (prev lvl : Bool) (idx : Nat) (s : State) :
    (edgeSteps prev lvl idx s).fault = s.fault := (edgeSteps_frame prev lvl idx s).fault

/-- A DATA transaction on the buffer, whole, by how many bytes it holds (R106, R107). -/
theorem group_eq (start stop : Nat) (byte : Byte) (s : State) :
    closeGroup stop (pushByte byte (openGroup start s)) =
      match s.baBuf with
      | [] => { s with baBuf := [byte], baGrpStart := some start }
      | [x, y] =>
        { s with
          baBuf := [],
          baOut := s.baOut ++ [rgbRecord (readIndex s.baGrpStart s.baOut.length) stop (baWord x y byte)] }
      | buf => { s with baBuf := buf ++ [byte] } := by
  rcases hb : s.baBuf with _ | ⟨x, _ | ⟨y, _ | ⟨z, rest⟩⟩⟩
  all_goals simp [openGroup, pushByte, closeGroup, emitBa, hb]

theorem group_frame (start stop : Nat) (byte : Byte) (s : State) :
    SameEtd s (closeGroup stop (pushByte byte (openGroup start s))) ∧
      (closeGroup stop (pushByte byte (openGroup start s))).etdOut = s.etdOut ∧
      SameHost s (closeGroup stop (pushByte byte (openGroup start s))) := by
  rw [group_eq]
  split <;> exact ⟨⟨rfl, rfl, rfl, rfl, rfl, rfl, rfl, rfl⟩, rfl, ⟨rfl, rfl, rfl⟩⟩

end Sys2Proof.Machine
end

