-- ==== Sys2Proof/Laws/PerInstr.lean ====
section
/-! SUPPORT. A fact of every operation as an encoded thing: the bundle that presents it carries its code, and bit 2 of
the code selects its unit (R45, R46). -/

namespace Sys2Proof.Laws.EncodingCode

/-- `cmd_op` of the bundle is the operation's code, and `cmd_op[2]` selects the unit: 0 the ETD, 1 the BA (R45). -/
def Statement (i : Instr) : Prop :=
  (encode i).op = i.opcode ∧ ((encode i).op.getLsbD 2 = true ↔ i.unit = .ba)

theorem init : Statement .init := by simp [Statement, encode, Bundle.ofOp, Instr.opcode, Instr.unit]

theorem setrate (rate : Nat) : Statement (.setrate rate) := by
  simp [Statement, encode, Bundle.ofOp, Instr.opcode, Instr.unit]

theorem sample (idx : Nat) (lvl : Bool) : Statement (.sample idx lvl) := by
  simp [Statement, encode, Bundle.ofOp, Instr.opcode, Instr.unit]

theorem bainit : Statement .bainit := by simp [Statement, encode, Bundle.ofOp, Instr.opcode, Instr.unit]

theorem txn (start stop : Nat) (isData : Bool) (byte byte2 : Byte) :
    Statement (.txn start stop isData byte byte2) := by
  simp [Statement, encode, Bundle.ofOp, Instr.opcode, Instr.unit]

end Sys2Proof.Laws.EncodingCode
end

