-- ==== Sys2Proof/Laws/Step.lean ====
section
/-! SUPPORT. Inversion of a SAMPLE and of a step: everything that can have happened when the answer is a next state. -/

namespace Sys2Proof.Machine

/-- Past the gate, the configuration check and the first sample, a SAMPLE runs its steps. -/
theorem execSample_running {s : State} {prev : Bool} (h : s.Running) (hp : s.prev = some prev) (idx : Nat)
    (lvl : Bool) : execSample idx lvl s = sampleSteps prev idx lvl s := by
  simp [execSample, h.1, h.2, hp]

theorem sampleSteps_marker {s : State} {idx rise fall : Nat} {lvl : Bool} (hd : s.ResetDue idx lvl fall)
    (hr : s.riseIdx = some rise) (prev : Bool) :
    sampleSteps prev idx lvl s = .next (edgeSteps prev lvl idx (resetPath rise fall idx s)) := by
  simp [sampleSteps, (resetDetected_iff idx lvl s).mpr ⟨fall, hd⟩, hr, hd.fallEdge]

theorem sampleSteps_noMarker {s : State} {idx : Nat} {lvl : Bool} (hd : s.NoResetDue idx lvl) (prev : Bool) :
    sampleSteps prev idx lvl s = .next (edgeSteps prev lvl idx s) := by
  simp [sampleSteps, (resetDetected_false_iff idx lvl s).mpr hd]

theorem noResetDue_high (s : State) (idx : Nat) : s.NoResetDue idx true := fun _ h => nomatch h.low

/-- The answers of a SAMPLE, one case per path of R75. -/
theorem execSample_cases {idx : Nat} {lvl : Bool} {s t : State} (h : execSample idx lvl s = .next t) :
    (s.fault ≠ 0#2 ∧ t = s) ∨
    (s.fault = 0#2 ∧ s.samplerate = 0 ∧ t = { s with fault := 1#2 }) ∨
    (s.Running ∧ s.prev = none ∧ t = { s with prev := some lvl }) ∨
    (∃ prev fall, s.Running ∧ s.prev = some prev ∧ s.ResetDue idx lvl fall ∧ s.riseIdx = none ∧
      t = { s with fault := 2#2 }) ∨
    (∃ prev rise fall, s.Running ∧ s.prev = some prev ∧ s.ResetDue idx lvl fall ∧ s.riseIdx = some rise ∧
      t = edgeSteps prev lvl idx (resetPath rise fall idx s)) ∨
    (∃ prev, s.Running ∧ s.prev = some prev ∧ s.NoResetDue idx lvl ∧ t = edgeSteps prev lvl idx s) := by
  unfold execSample at h
  split at h
  · next hf => exact .inl ⟨hf, by simpa [raiseFault, latchFault] using h.symm⟩
  · next hf =>
    have hf : s.fault = 0#2 := not_not.mp hf
    split at h
    · next hr => exact .inr (.inl ⟨hf, hr, by simpa [raiseFault, latchFault] using h.symm⟩)
    · next hr =>
      split at h
      · next hp => exact .inr (.inr (.inl ⟨⟨hf, hr⟩, hp, by simpa using h.symm⟩))
      · next prev hp =>
        unfold sampleSteps at h
        split at h
        · next hd =>
          obtain ⟨fall, hd⟩ := (resetDetected_iff _ _ _).mp hd
          rw [hd.fallEdge] at h
          cases hrise : s.riseIdx with
          | none =>
            rw [hrise] at h
            exact .inr (.inr (.inr (.inl ⟨prev, fall, ⟨hf, hr⟩, hp, hd, rfl,
              by simpa [raiseFault, latchFault, hrise] using h.symm⟩)))
          | some rise =>
            rw [hrise] at h
            exact .inr (.inr (.inr (.inr (.inl ⟨prev, rise, fall, ⟨hf, hr⟩, hp, hd, rfl,
              by simpa using h.symm⟩))))
        · next hd =>
          have hd := (resetDetected_false_iff _ _ _).mp (Bool.eq_false_iff.mpr hd)
          exact .inr (.inr (.inr (.inr (.inr ⟨prev, ⟨hf, hr⟩, hp, hd, by simpa using h.symm⟩))))

theorem withBa_next {op : BitVec 3} {s t : State} {run : State → Answer} (h : withBa op s run = .next t) :
    s.hasBA = true ∧ run s = .next t := by
  unfold withBa at h
  split at h
  · next hb => exact ⟨hb, h⟩
  · cases h

theorem execBainit_cases {s t : State} (h : execBainit s = .next t) : s.hasBA = true ∧ t = initBa s := by
  obtain ⟨hb, h⟩ := withBa_next h
  exact ⟨hb, by simpa using h.symm⟩

theorem execTxn_cases {start stop : Nat} {isData : Bool} {byte byte2 : Byte} {s t : State}
    (h : execTxn start stop isData byte byte2 s = .next t) :
    s.hasBA = true ∧ ((isData = false ∧ t = s) ∨
      (isData = true ∧ t = closeGroup stop (pushByte byte (openGroup start s)))) := by
  obtain ⟨hb, h⟩ := withBa_next h
  refine ⟨hb, ?_⟩
  cases isData
  · exact .inl ⟨rfl, by simpa using h.symm⟩
  · exact .inr ⟨rfl, by simpa using h.symm⟩

/-- The answers of a step. -/
theorem step_cases {s t : State} (h : step s = .next t) :
    (s.input = [] ∧ t = s) ∨
    (∃ rest, s.input = .powerOn :: rest ∧ t = powerOnReset (takePowerOn rest s)) ∨
    (∃ b rest i, s.input = .cmd b :: rest ∧ decode b = .ok i ∧ inOrder i s.lastIdx = true ∧
      exec i (takeOp i rest s) = .next t) := by
  unfold step fetch at h
  split at h
  · next hfetch =>
    split at hfetch
    · next hi => exact .inl ⟨hi, by simpa using h.symm⟩
    · cases hfetch
    · split at hfetch
      · cases hfetch
      · split at hfetch <;> cases hfetch
  · next s' hfetch =>
    split at hfetch
    · cases hfetch
    · next rest hi =>
      cases hfetch
      exact .inr (.inl ⟨rest, hi, by simpa using h.symm⟩)
    · split at hfetch
      · cases hfetch
      · split at hfetch <;> cases hfetch
  · next i s' hfetch =>
    split at hfetch
    · cases hfetch
    · cases hfetch
    · next b rest hi =>
      split at hfetch
      · cases hfetch
      · next j hd =>
        split at hfetch
        · next ho =>
          cases hfetch
          exact .inr (.inr ⟨b, rest, i, hi, hd, ho, h⟩)
        · cases hfetch
  · cases h

theorem fetch_reserved {s : State} {b : Bundle} {rest : List HostItem} {op : BitVec 3}
    (hi : s.input = .cmd b :: rest) (hd : decode b = .error (.reservedCode op)) :
    fetch s = .reject (.reservedOperation op) := by
  simp [fetch, hi, hd]

end Sys2Proof.Machine
end

