-- ==== Sys2Proof/Tests/Slice0.lean ====
section
/-! SUPPORT. Own tests. Expected results are those of 95_test_vectors.md, or are worked out by hand from the rule
named. First the ill-formed operations, then decoding, then single steps, then for every statement with hypotheses a
state and operands that meet them (`test_meets_<Statement>`). -/

namespace Sys2Proof.Tests

open Sys2Proof.Machine

/-! ## States the tests start from -/

/-- A low line at 20 MHz, after the first SAMPLE (V10 after `S 0 0`). -/
def low20 : State := { State.reset with samplerate := 20000000, prev := some false }

/-- A pulse has ended, its bit is pending (V10 after `S 26 0`). -/
def pending20 : State := { low20 with pktIdx := some 10, riseIdx := some 10, fallIdx := some 26, lastIdx := some 26 }

/-- A pulse is running, one bit is decided (V11 after `S 35 1`). -/
def high20 : State :=
  { low20 with
    prev := some true, acc := [true], pktIdx := some 10, riseIdx := some 35, fallIdx := some 26, lastIdx := some 35 }

/-- The 24 bits of `grb = 0x123456`, first received first (V7). -/
def bits123456 : List Bool :=
  [false, false, false, true, false, false, true, false, false, false, true, true] ++
  [false, true, false, false, false, true, false, true, false, true, true, false]

/-- The 24th bit of a pixel is pending (V7 and V8 after `S 593 0`). -/
def pixel20 : State :=
  { low20 with
    acc := bits123456.take 23, pktIdx := some 10, riseIdx := some 585, fallIdx := some 593, lastIdx := some 593 }

/-- A session that began high has fallen: no bit start (V6 after `S 5 0`). -/
def noStart20 : State := { low20 with fallIdx := some 5, lastIdx := some 5 }

/-- The aborted state (V6 after `S 1006 0`). -/
def aborted20 : State := { noStart20 with fault := 2#2, lastIdx := some 1006 }

/-- After a RESET marker (V10 after `S 1100 0`). -/
def marked20 : State := { low20 with fallIdx := some 76, inReset := true, lastIdx := some 1100 }

/-- The Byte-Assembler with two bytes of a group (P2 after operation 4). -/
def twoBytes : State := { State.reset with baBuf := [0x12, 0x34], baGrpStart := some 0 }

/-- The block without its Byte-Assembler. -/
def noBA : State := { State.reset with hasBA := false }

/-! ## Well-formedness: one ill-formed operation per check -/

theorem test_wf_rate_too_wide : (Instr.setrate (2 ^ 64)).wellFormed = false := by decide
theorem test_wf_rate_widest : (Instr.setrate (2 ^ 64 - 1)).wellFormed = true := by decide
theorem test_wf_idx_too_wide : (Instr.sample (2 ^ 64) true).wellFormed = false := by decide
theorem test_wf_start_too_wide : (Instr.txn (2 ^ 64) 0 true 0 0).wellFormed = false := by decide
theorem test_wf_stop_too_wide : (Instr.txn 0 (2 ^ 64) true 0 0).wellFormed = false := by decide

/-! ## Decoding: codes written out from the table of R46, fields from R45 -/

theorem test_decode_init : decode (Bundle.ofOp 0b000#3) = .ok .init := by decide

theorem test_decode_setrate :
    decode { Bundle.ofOp 0b001#3 with rate := 20000000 } = .ok (.setrate 20000000) := by decide

/-- `S 35 1` is `cmd_op=2, cmd_idx=35, cmd_lvl=1` (R59). -/
theorem test_decode_sample :
    decode { Bundle.ofOp 0b010#3 with idx := 35, lvl := true } = .ok (.sample 35 true) := by decide

theorem test_decode_bainit : decode (Bundle.ofOp 0b100#3) = .ok .bainit := by decide

/-- P2 operation 4, with a `cmd_byte2`. -/
theorem test_decode_txn :
    decode { Bundle.ofOp 0b101#3 with idx := 9, endIdx := 17, isData := true, byte := 0x34, byte2 := 0x77 } =
      .ok (.txn 9 17 true 0x34 0x77) := by decide

theorem test_decode_reserved :
    [0b011#3, 0b110#3, 0b111#3].map (fun op => decode (Bundle.ofOp op)) =
      [.error (.reservedCode 3), .error (.reservedCode 6), .error (.reservedCode 7)] := by decide

/-- A field not listed for an operation is ignored by it (R45). -/
theorem test_decode_ignores_unlisted :
    decode { Bundle.ofOp 0b010#3 with idx := 7, endIdx := 9, rate := 5, isData := true, byte := 1, byte2 := 2 } =
      .ok (.sample 7 false) := by decide

theorem test_table_words :
    [0, 1, 2, 3, 4, 5, 6, 7].map (decodeTableWord 8) =
      [some .init, some (.setrate 0), some (.sample 0 false), none, some .bainit, some (.txn 0 0 false 0 0), none,
        none] := by decide

/-! ## Single steps, at most two per operation -/

/-- V16: INIT in the middle of a frame. -/
theorem test_init_mid_frame : exec .init high20 = .next { State.reset with lastIdx := some 35 } := rfl

/-- P3 operation 5: INIT ends the aborted state. -/
theorem test_init_ends_abort : exec .init aborted20 = .next { State.reset with lastIdx := some 1006 } := rfl

/-- V18: a rate of 0 is accepted. -/
theorem test_setrate_zero : exec (.setrate 0) low20 = .next { low20 with samplerate := 0 } := rfl

/-- V6: SETRATE does not clear FAULT. -/
theorem test_setrate_aborted :
    exec (.setrate 16000000) aborted20 = .next { aborted20 with samplerate := 16000000 } := rfl

/-- V8: BIT before RGB, the pixel reordered and ended here, the next packet begun by the same SAMPLE. -/
theorem test_sample_completes_pixel :
    exec (.sample 610 true) pixel20 =
      .next { pixel20 with
        prev := some true, acc := [], pktIdx := some 610, riseIdx := some 610,
        etdOut := [⟨.bit, 585, 610, 0⟩, ⟨.rgb, 10, 610, 0x341256⟩] } := rfl

/-- V11: the RESET marker on a falling edge. -/
theorem test_sample_marker_on_falling_edge :
    exec (.sample 1100 false) high20 =
      .next { high20 with
        prev := some false, acc := [], pktIdx := none, riseIdx := none, fallIdx := some 1100,
        etdOut := [⟨.bit, 35, 26, 0⟩, ⟨.reset, 26, 1100, 0⟩] } := rfl

/-- V20: BAINIT discards a partial group. -/
theorem test_bainit_discards :
    exec .bainit twoBytes = .next { twoBytes with baBuf := [], baGrpStart := none } := rfl

/-- R56: without the unit its codes are reserved. -/
theorem test_bainit_absent : exec .bainit noBA = .refused (.reservedOperation 4) := rfl

/-- P2 operation 5: the third byte; the group start stays. -/
theorem test_txn_third_byte :
    exec (.txn 17 25 true 0x56 0xff) twoBytes =
      .next { twoBytes with baBuf := [], baOut := [⟨.rgb, 0, 25, 0x123456⟩] } := rfl

/-- V20: a transaction that is not DATA on an empty buffer does not move the group start. -/
theorem test_txn_other :
    exec (.txn 1 2 false 0xff 0xff) { twoBytes with baBuf := [] } = .next { twoBytes with baBuf := [] } := rfl

/-- The step decodes, takes the item, notes the index and runs the operation: P1 operation 3. -/
theorem test_step_sample :
    step { State.reset with samplerate := 20000000, input := [.cmd { Bundle.ofOp 2 with idx := 0 }, .powerOn] } =
      .next { low20 with input := [.powerOn], lastIdx := some 0 } := rfl

/-- The opcode-table row of SETRATE runs as the first operation after reset. -/
theorem test_placed_word : step (State.reset.withFetchWord 8 1) = .next State.reset := rfl

/-! ## Hypotheses met -/

theorem precedes_reset (idx : Nat) : State.reset.Precedes idx := ⟨nofun, nofun, nofun⟩
theorem precedes_low {idx : Nat} : low20.Precedes idx := ⟨nofun, nofun, nofun⟩

theorem precedes_pending {idx : Nat} (h : 26 < idx) : pending20.Precedes idx := by
  refine ⟨?_, ?_, ?_⟩ <;> (intro i hi; simp [pending20] at hi; omega)

theorem precedes_high {idx : Nat} (h : 35 < idx) : high20.Precedes idx := by
  refine ⟨?_, ?_, ?_⟩ <;> (intro i hi; simp [high20] at hi; omega)

theorem precedes_pixel {idx : Nat} (h : 593 < idx) : pixel20.Precedes idx := by
  refine ⟨?_, ?_, ?_⟩ <;> (intro i hi; simp [pixel20] at hi; omega)

theorem precedes_noStart {idx : Nat} (h : 5 < idx) : noStart20.Precedes idx := by
  constructor <;> simp [noStart20, low20, State.reset]
  omega

theorem precedes_aborted {idx : Nat} (h : 5 < idx) : aborted20.Precedes idx := by
  constructor <;> simp [aborted20, noStart20, low20, State.reset]
  omega

theorem precedes_marked {idx : Nat} (h : 76 < idx) : marked20.Precedes idx := by
  constructor <;> simp [marked20, low20, State.reset]
  omega

theorem running_low : low20.Running := ⟨rfl, by decide⟩

/-- The gap of 1001 samples at 20 MHz is the least that is due (R91); on a line that stays low. -/
theorem due_pending : pending20.ResetDue 1027 false 26 := ⟨rfl, rfl, rfl, by decide⟩

/-- The same on a falling edge (V11). -/
theorem due_high : high20.ResetDue 1027 false 26 := ⟨rfl, rfl, rfl, by decide⟩

theorem due_pixel : pixel20.ResetDue 1594 false 593 := ⟨rfl, rfl, rfl, by decide⟩
theorem due_noStart : noStart20.ResetDue 1006 false 5 := ⟨rfl, rfl, rfl, by decide⟩

/-- A gap of exactly 50 µs is not due (V6). -/
theorem notDue_noStart : noStart20.NoResetDue 1005 false :=
  (resetDetected_false_iff _ _ _).mp (by decide)

theorem notDue_pending : pending20.NoResetDue 1026 false := (resetDetected_false_iff _ _ _).mp (by decide)
theorem notDue_high : high20.NoResetDue 51 false := (resetDetected_false_iff _ _ _).mp (by decide)
theorem notDue_low : low20.NoResetDue 16 false := (resetDetected_false_iff _ _ _).mp (by decide)

theorem inv_reset : Inv State.reset := by
  refine ⟨?_, ?_, ?_⟩ <;> constructor <;> simp [State.reset]

theorem inv_pending : Inv pending20 := by
  refine ⟨?_, ?_, ?_⟩ <;> constructor <;> simp [pending20, low20, State.reset]

theorem inv_high : Inv high20 := by
  refine ⟨?_, ?_, ?_⟩ <;> constructor <;> simp [high20, low20, State.reset]

theorem inv_pixel : Inv pixel20 := by
  refine ⟨?_, ?_, ?_⟩ <;> constructor <;> simp [pixel20, bits123456, low20, State.reset]

theorem test_meets_ResetValuesOfBothUnits : State.reset.hasBA = true := rfl

theorem test_meets_InitClearsTheEtdOnly : (Bundle.ofOp 0).op = 0#3 := rfl
theorem test_meets_SetrateWritesSamplerateOnly : (Bundle.ofOp 1).op = 1#3 := rfl

/-- Rate 0; then V17 with the least gap due at 16 MHz, 801; then the aborted state. -/
theorem test_meets_SetrateCornerCases :
    (exec (.setrate 0) low20 = .next { low20 with samplerate := 0 } ∧ low20.fault = 0#2 ∧ low20.Precedes 1) ∧
    (let s : State := { pending20 with riseIdx := some 10, fallIdx := some 22 }
     exec (.setrate 16000000) s = .next { s with samplerate := 16000000 } ∧ s.Precedes 823 ∧ s.fault = 0#2 ∧
       (16000000 : Nat) ≠ 0 ∧ s.prev = some false ∧ s.inReset = false ∧ s.acc = [] ∧ s.riseIdx = some 10 ∧
       s.fallIdx = some 22 ∧ ((823 : Int) - 22) * 1000000 > 50 * 16000000) ∧
    (exec (.setrate 1) aborted20 = .next { aborted20 with samplerate := 1 } ∧ aborted20.fault ≠ 0#2 ∧
      aborted20.Precedes 1007) := by
  refine ⟨⟨rfl, rfl, precedes_low⟩, ⟨rfl, ?_, rfl, by decide, rfl, rfl, rfl, rfl, rfl, by decide⟩,
    ⟨rfl, by decide, precedes_aborted (by decide)⟩⟩
  constructor <;> simp [pending20]

theorem test_meets_PowerOnResetIsInitThenBainit :
    pending20.hasBA = true ∧ ({ pending20 with input := [.powerOn] } : State).input = .powerOn :: [] := ⟨rfl, rfl⟩

/-- Two histories, the same session after INIT. -/
theorem test_meets_SessionsAreIndependent :
    orderedFrom none [.setrate 20000000, .sample 0 false, .sample 10 true] = true ∧
    (∃ t, execAll [.init, .setrate 20000000, .sample 0 false, .sample 10 true] pixel20 = .next t) ∧
    ∃ t, execAll [.init, .setrate 20000000, .sample 0 false, .sample 10 true] aborted20 = .next t :=
  ⟨by decide, ⟨_, rfl⟩, ⟨_, rfl⟩⟩

theorem test_meets_AbortedSampleRaisesLatchedFault : aborted20.Precedes 1007 ∧ aborted20.fault ≠ 0#2 :=
  ⟨precedes_aborted (by decide), by decide⟩

theorem test_meets_SampleWithoutRateRaisesCfg :
    State.reset.Precedes 0 ∧ State.reset.fault = 0#2 ∧ State.reset.samplerate = 0 :=
  ⟨precedes_reset 0, rfl, rfl⟩

theorem test_meets_ResetWithoutBitStartRaisesNoBitStart :
    noStart20.Precedes 1006 ∧ noStart20.Running ∧ noStart20.prev = some false ∧
      noStart20.ResetDue 1006 false 5 ∧ noStart20.riseIdx = none :=
  ⟨precedes_noStart (by decide), running_low, rfl, due_noStart, rfl⟩

/-- Each of the four clauses: latched, no rate, running with the condition due and not due. -/
theorem test_meets_FaultPriorityWithinSample :
    (aborted20.Precedes 1007 ∧ aborted20.fault ≠ 0#2) ∧
    (State.reset.Precedes 0 ∧ State.reset.fault = 0#2 ∧ State.reset.samplerate = 0) ∧
    (noStart20.Precedes 1006 ∧ noStart20.Running ∧ noStart20.ResetDue 1006 false 5) ∧
    (noStart20.Precedes 1005 ∧ noStart20.Running ∧ noStart20.NoResetDue 1005 false) :=
  ⟨test_meets_AbortedSampleRaisesLatchedFault, test_meets_SampleWithoutRateRaisesCfg,
    ⟨precedes_noStart (by decide), running_low, due_noStart⟩,
    ⟨precedes_noStart (by decide), running_low, notDue_noStart⟩⟩

/-- A fault newly raised, and one raised again. -/
theorem test_meets_FaultsArePrecise :
    (noStart20.InOrder (.sample 1006 false) ∧
      exec (.sample 1006 false) noStart20 = .next { noStart20 with fault := 2#2 } ∧ noStart20.fault = 0#2) ∧
    (aborted20.InOrder (.sample 1007 true) ∧ exec (.sample 1007 true) aborted20 = .next aborted20 ∧
      aborted20.fault ≠ 0#2) :=
  ⟨⟨precedes_noStart (by decide), rfl, rfl⟩, ⟨precedes_aborted (by decide), rfl, by decide⟩⟩

/-- By INIT, by a power-on reset, and by a SAMPLE, which leaves the fault. -/
theorem test_meets_OnlyInitializationLeavesAbortedState :
    aborted20.fault ≠ 0#2 ∧
    (∃ t, step { aborted20 with input := [.cmd (Bundle.ofOp 0)] } = .next t ∧ t.fault ≠ 2#2) ∧
    (∃ t, step { aborted20 with input := [.powerOn] } = .next t ∧ t.fault ≠ 2#2) ∧
    ∃ t, step { aborted20 with input := [.cmd { Bundle.ofOp 2 with idx := 1007 }] } = .next t ∧ t.fault = 2#2 :=
  ⟨by decide, ⟨_, rfl, by decide⟩, ⟨_, rfl, by decide⟩, ⟨_, rfl, by decide⟩⟩

theorem test_meets_FaultCodeThreeIsNeverLatched :
    faultCodeOut noStart20 ≠ 3#2 ∧
      ∃ t, step { noStart20 with input := [.cmd { Bundle.ofOp 2 with idx := 1006 }] } = .next t ∧ t.fault = 2#2 :=
  ⟨by decide, ⟨_, rfl, by decide⟩⟩

theorem test_meets_FirstSampleRecordsLevelOnly :
    let s : State := { State.reset with samplerate := 1 }
    s.Precedes 0 ∧ s.Running ∧ s.prev = none :=
  ⟨⟨nofun, nofun, nofun⟩, ⟨rfl, by decide⟩, rfl⟩

theorem test_meets_SampleWithoutEdgeChangesNothing :
    noStart20.Precedes 1005 ∧ noStart20.Running ∧ noStart20.prev = some false ∧ noStart20.NoResetDue 1005 false :=
  ⟨precedes_noStart (by decide), running_low, rfl, notDue_noStart⟩

theorem test_meets_FallingEdgeRecordsPulseEnd :
    (high20.Precedes 51 ∧ high20.Running ∧ high20.prev = some true ∧ high20.NoResetDue 51 false) ∧
    (high20.InOrder (.sample 51 false) ∧
      ∃ t, exec (.sample 51 false) high20 = .next t ∧ t.fallIdx ≠ high20.fallIdx) ∧
    (let s : State := { marked20 with prev := some true }
     s.InOrder (.sample 77 false) ∧
      ∃ t, exec (.sample 77 false) s = .next t ∧ s.inReset = true ∧ t.inReset = false) := by
  refine ⟨⟨precedes_high (by decide), running_low, rfl, notDue_high⟩,
    ⟨precedes_high (by decide), _, rfl, by decide⟩, ⟨?_, _, rfl, rfl, by decide⟩⟩
  constructor <;> simp [marked20, low20, State.reset]

/-- A bit that is not the 24th (boundary: the duty exactly one half, at 42), the 24th, and no pending bit. -/
theorem test_meets_RisingEdgeDecidesPendingBit :
    (pending20.Precedes 42 ∧ pending20.Running ∧ pending20.prev = some false ∧ pending20.riseIdx = some 10 ∧
      pending20.fallIdx = some 26 ∧ pending20.pktIdx = some 10 ∧ pending20.acc.length ≠ 23 ∧ Inv pending20) ∧
    (pixel20.Precedes 610 ∧ pixel20.Running ∧ pixel20.prev = some false ∧ pixel20.riseIdx = some 585 ∧
      pixel20.fallIdx = some 593 ∧ pixel20.pktIdx = some 10 ∧ pixel20.acc.length = 23 ∧ Inv pixel20) ∧
    (marked20.Precedes 3000 ∧ marked20.Running ∧ marked20.prev = some false ∧ marked20.riseIdx = none) ∧
    (let s : State := { low20 with riseIdx := some 1, pktIdx := some 1 }
     s.Precedes 2 ∧ s.Running ∧ s.prev = some false ∧ s.fallIdx = none) := by
  refine ⟨⟨precedes_pending (by decide), running_low, rfl, rfl, rfl, rfl, by decide, inv_pending⟩,
    ⟨precedes_pixel (by decide), running_low, rfl, rfl, rfl, rfl, by decide, inv_pixel⟩,
    ⟨precedes_marked (by decide), running_low, rfl, rfl⟩, ⟨?_, running_low, rfl, rfl⟩⟩
  constructor <;> simp [low20, State.reset]

/-- At the least gap that is due, and one below it. -/
theorem test_meets_ResetMarkerExactlyWhenDue :
    (pending20.Precedes 1027 ∧ pending20.Running ∧ pending20.prev ≠ none ∧ pending20.ResetDue 1027 false 26) ∧
    (pending20.Precedes 1026 ∧ pending20.Running ∧ pending20.prev ≠ none ∧ pending20.NoResetDue 1026 false) :=
  ⟨⟨precedes_pending (by decide), running_low, by decide, due_pending⟩,
    ⟨precedes_pending (by decide), running_low, by decide, notDue_pending⟩⟩

/-- V10's shape on a low line, V7 with the 24th bit, V11 on a falling edge. -/
theorem test_meets_ResetMarkerFinalizesPendingBit :
    (pending20.Precedes 1027 ∧ pending20.Running ∧ pending20.prev = some false ∧
      pending20.ResetDue 1027 false 26 ∧ pending20.riseIdx = some 10 ∧ pending20.pktIdx = some 10) ∧
    (pixel20.Precedes 1594 ∧ pixel20.Running ∧ pixel20.prev = some false ∧ pixel20.ResetDue 1594 false 593 ∧
      pixel20.riseIdx = some 585 ∧ pixel20.pktIdx = some 10 ∧ pixel20.acc.length = 23) ∧
    (high20.Precedes 1027 ∧ high20.Running ∧ high20.prev = some true ∧ high20.ResetDue 1027 false 26 ∧
      high20.riseIdx = some 35 ∧ high20.pktIdx = some 10) :=
  ⟨⟨precedes_pending (by decide), running_low, rfl, due_pending, rfl, rfl⟩,
    ⟨precedes_pixel (by decide), running_low, rfl, due_pixel, rfl, rfl, by decide⟩,
    ⟨precedes_high (by decide), running_low, rfl, due_high, rfl, rfl⟩⟩

theorem test_meets_ResetMarkerOnFallingEdgeReversesBit :
    Inv high20 ∧ high20.Precedes 1027 ∧ high20.Running ∧ high20.prev = some true ∧
      high20.ResetDue 1027 false 26 ∧ high20.riseIdx = some 35 ∧ high20.pktIdx = some 10 ∧
      high20.acc.length ≠ 23 :=
  ⟨inv_high, precedes_high (by decide), running_low, rfl, due_high, rfl, rfl, by decide⟩

theorem test_meets_OneResetMarkerPerLowPeriod :
    marked20.Running ∧ marked20.prev = some false ∧ marked20.inReset = true ∧
      [1101, 2000].Pairwise (· < ·) ∧ ∀ idx ∈ [1101, 2000], marked20.Precedes idx := by
  refine ⟨running_low, rfl, rfl, by decide, ?_⟩
  intro idx h
  exact precedes_marked (by simp at h; omega)

/-- One state for each of the five sequences, one that faults, and one first sample. -/
theorem test_meets_SampleEmitsOneOfFiveSequences :
    (low20.Precedes 10 ∧ ∃ t, exec (.sample 10 true) low20 = .next t ∧ t.etdOut = []) ∧
    (pending20.Precedes 35 ∧ ∃ t, exec (.sample 35 true) pending20 = .next t ∧
      t.etdOut.map (·.kind) = [.bit]) ∧
    (pixel20.Precedes 610 ∧ ∃ t, exec (.sample 610 true) pixel20 = .next t ∧
      t.etdOut.map (·.kind) = [.bit, .rgb]) ∧
    (pending20.Precedes 1027 ∧ ∃ t, exec (.sample 1027 false) pending20 = .next t ∧
      t.etdOut.map (·.kind) = [.bit, .reset]) ∧
    (pixel20.Precedes 1594 ∧ ∃ t, exec (.sample 1594 false) pixel20 = .next t ∧
      t.etdOut.map (·.kind) = [.rgb, .bit, .reset]) ∧
    (noStart20.Precedes 1006 ∧ ∃ t, exec (.sample 1006 false) noStart20 = .next t ∧ t.fault ≠ 0#2) ∧
    (State.reset.Precedes 0 ∧ State.reset.prev = none ∧ ∃ t, exec (.sample 0 false) State.reset = .next t) :=
  ⟨⟨precedes_low, _, rfl, by decide⟩, ⟨precedes_pending (by decide), _, rfl, by decide⟩,
    ⟨precedes_pixel (by decide), _, rfl, by decide⟩, ⟨precedes_pending (by decide), _, rfl, by decide⟩,
    ⟨precedes_pixel (by decide), _, rfl, by decide⟩, ⟨precedes_noStart (by decide), _, rfl, by decide⟩,
    ⟨precedes_reset 0, rfl, _, rfl⟩⟩

/-- With no RESET record (the 24th bit), and with one (the 24th bit again). -/
theorem test_meets_DecidedBitsAreGroupedByTwentyFour :
    EtdInv pixel20 ∧
    (pixel20.Precedes 610 ∧ ∃ t, exec (.sample 610 true) pixel20 = .next t ∧
      ofKind .reset (newEtd pixel20 t) = []) ∧
    (pixel20.Precedes 1594 ∧ ∃ t, exec (.sample 1594 false) pixel20 = .next t ∧
      ofKind .reset (newEtd pixel20 t) ≠ []) :=
  ⟨inv_pixel.etd, ⟨precedes_pixel (by decide), _, rfl, by decide⟩, ⟨precedes_pixel (by decide), _, rfl, by decide⟩⟩

theorem test_meets_SampleLeavesTheRestUnchanged :
    (pixel20.Precedes 1594 ∧ ∃ t, exec (.sample 1594 false) pixel20 = .next t) ∧
    (noStart20.Precedes 1006 ∧ ∃ t, exec (.sample 1006 false) noStart20 = .next t ∧ t.fault ≠ noStart20.fault) :=
  ⟨⟨precedes_pixel (by decide), _, rfl⟩, ⟨precedes_noStart (by decide), _, rfl, by decide⟩⟩

/-- V7's worked value; the packet start of a full and of a partial accumulator. -/
theorem test_meets_PixelAssemblyReordersGrbToRgb :
    (let s : State := { pixel20 with acc := bits123456 }
     s.pktIdx = some 10 ∧ s.acc.length = 24) ∧
    (pixel20.pktIdx = some 10 ∧ pixel20.acc.length ≠ 24) ∧
    (bits123456.length = 24 ∧ wireSum bits123456 = 0x123456) :=
  ⟨⟨rfl, by decide⟩, ⟨rfl, by decide⟩, ⟨by decide, by decide⟩⟩

/-- The first and the last place of each channel. -/
theorem test_meets_PixelBitsComeFromTheirWirePlaces : bits123456.length = 24 ∧ 0 < 8 ∧ 7 < 8 := by decide

/-- At 1.6 MHz the shortest pulse is a 1; just above that rate it is a 0. -/
theorem test_meets_TimeThresholdsInSamples :
    1600000 ≤ 1600000 ∧ (1 : Int) > 0 ∧ highTimeBit 1 1600000 = true ∧ highTimeBit 1 1600001 = false := by decide

theorem test_meets_RecordBundleCarriesRecord :
    fitsIndex (⟨.reset, 2 ^ 64 - 1, 0, 0⟩ : Record).start = true ∧
      fitsIndex (⟨.rgb, 0, 2 ^ 64 - 1, 0xffffff⟩ : Record).stop = true := by decide

theorem test_meets_BainitClearsTheBaOnly : (Bundle.ofOp 4).op = 4#3 ∧ twoBytes.hasBA = true := ⟨rfl, rfl⟩
theorem test_meets_NonDataTransactionIsIgnored : twoBytes.hasBA = true := rfl

/-- A first, a second and a third byte. -/
theorem test_meets_DataTransactionFillsGroup :
    (State.reset.hasBA = true ∧ State.reset.baBuf = []) ∧
    (let s : State := { twoBytes with baBuf := [0x12] }
     s.hasBA = true ∧ s.baBuf ≠ [] ∧ s.baBuf.length ≠ 2) ∧
    (twoBytes.hasBA = true ∧ twoBytes.baBuf = [0x12, 0x34] ∧ twoBytes.baGrpStart = some 0) :=
  ⟨⟨rfl, rfl⟩, ⟨rfl, by decide, by decide⟩, ⟨rfl, rfl, rfl⟩⟩

theorem test_meets_BaStreamIsTheTriplesOfDataBytes : State.reset.hasBA = true ∧ State.reset.baBuf = [] := ⟨rfl, rfl⟩

theorem test_meets_UnitsDoNotWriteEachOther :
    (pixel20.InOrder (.sample 610 true) ∧ (∃ t, exec (.sample 610 true) pixel20 = .next t) ∧
      (Instr.sample 610 true).unit = .etd) ∧
    (twoBytes.InOrder (.txn 17 25 true 0x56 0) ∧ (∃ t, exec (.txn 17 25 true 0x56 0) twoBytes = .next t) ∧
      (Instr.txn 17 25 true 0x56 0).unit = .ba) :=
  ⟨⟨precedes_pixel (by decide), ⟨_, rfl⟩, rfl⟩, ⟨trivial, ⟨_, rfl⟩, rfl⟩⟩

/-- The other state has another BA, without the unit; then another ETD. -/
theorem test_meets_UnitsDoNotReadEachOther :
    (let s' : State := { pixel20 with hasBA := false, baBuf := [1] }
     pixel20.InOrder (.sample 610 true) ∧ (∃ t, exec (.sample 610 true) pixel20 = .next t) ∧ SameEtd pixel20 s' ∧
       s'.etdOut = pixel20.etdOut) ∧
    (let s' : State := { aborted20 with baBuf := twoBytes.baBuf, baGrpStart := twoBytes.baGrpStart }
     twoBytes.InOrder (.txn 17 25 true 0x56 0) ∧ (∃ t, exec (.txn 17 25 true 0x56 0) twoBytes = .next t) ∧
       SameBa twoBytes s' ∧ s'.hasBA = twoBytes.hasBA ∧ s'.baOut = twoBytes.baOut) :=
  ⟨⟨precedes_pixel (by decide), ⟨_, rfl⟩, ⟨rfl, rfl, rfl, rfl, rfl, rfl, rfl, rfl⟩, rfl⟩,
    ⟨trivial, ⟨_, rfl⟩, ⟨rfl, rfl⟩, rfl, rfl⟩⟩

theorem test_meets_InterleavingDoesNotMatter :
    orderedFrom pixel20.lastIdx [.txn 0 8 true 0x12 0, .sample 610 true, .bainit, .sample 611 false] = true ∧
    ∃ t, execAll [.txn 0 8 true 0x12 0, .sample 610 true, .bainit, .sample 611 false] pixel20 = .next t :=
  ⟨by decide, ⟨_, rfl⟩⟩

theorem test_meets_StreamsOnlyGrow :
    ∃ t, step { pixel20 with input := [.cmd { Bundle.ofOp 2 with idx := 610, lvl := true }] } = .next t := ⟨_, rfl⟩

theorem test_meets_RecordFormsAreKept :
    StreamForms { pixel20 with input := [.cmd { Bundle.ofOp 2 with idx := 610, lvl := true }] } ∧
    ∃ t, step { pixel20 with input := [.cmd { Bundle.ofOp 2 with idx := 610, lvl := true }] } = .next t :=
  ⟨⟨nofun, nofun⟩, ⟨_, rfl⟩⟩

/-- A stream that holds a RESET record, and a step that emits another. -/
theorem test_meets_ResetRecordsFollowBitRecords :
    let s : State :=
      { pending20 with
        etdOut := [⟨.bit, 1, 2, 0⟩, ⟨.reset, 2, 9, 0⟩], input := [.cmd { Bundle.ofOp 2 with idx := 1027 }] }
    ResetsFollowBits s.etdOut ∧ ∃ t, step s = .next t ∧ t.etdOut.length = 4 := by
  refine ⟨?_, _, rfl, by decide⟩
  intro k r hk hr
  match k with
  | 0 => simp at hk; subst hk; cases hr
  | 1 => simp at hk; subst hk; exact ⟨0, _, rfl, rfl, rfl, rfl⟩
  | k + 2 => simp at hk

theorem test_meets_EveryStepKeepsTheInvariant :
    Inv { pixel20 with input := [.cmd { Bundle.ofOp 2 with idx := 610, lvl := true }] } ∧
    ∃ t, step { pixel20 with input := [.cmd { Bundle.ofOp 2 with idx := 610, lvl := true }] } = .next t := by
  refine ⟨⟨?_, ?_, ?_⟩, _, rfl⟩
  · exact ⟨inv_pixel.etd.1, inv_pixel.etd.2, inv_pixel.etd.3, inv_pixel.etd.4, inv_pixel.etd.5, inv_pixel.etd.6,
      inv_pixel.etd.7⟩
  · exact ⟨inv_pixel.ba.1, inv_pixel.ba.2⟩
  · exact ⟨inv_pixel.order.1, inv_pixel.order.2, inv_pixel.order.3, inv_pixel.order.4, inv_pixel.order.5,
      inv_pixel.order.6, inv_pixel.order.7⟩

/-- A session of five presentations that emits a BIT record (P3 operations 6 to 10). -/
theorem test_meets_StartIndicesIncreaseWithinSession :
    let s : State :=
      { State.reset with
        input :=
          [.cmd { Bundle.ofOp 1 with rate := 20000000 }, .cmd { Bundle.ofOp 2 with idx := 2 },
            .cmd { Bundle.ofOp 2 with idx := 10, lvl := true }, .cmd { Bundle.ofOp 2 with idx := 26 },
            .cmd { Bundle.ofOp 2 with idx := 35, lvl := true }] }
    s.EtdAtReset ∧ s.lastIdx = none ∧ (∀ x ∈ s.input, x.beginsSession = false) ∧
      ∃ t, runSteps 5 s = .next t ∧ t.etdOut = [⟨.bit, 10, 35, 1⟩] :=
  ⟨⟨rfl, rfl, rfl, rfl, rfl, rfl, rfl, rfl⟩, rfl, by decide, _, rfl, by decide⟩

/-- V11's reversed record. -/
theorem test_meets_OnlyFallingEdgeMarkersReverseRecords :
    Inv high20 ∧ high20.Precedes 1100 ∧ ∃ t, exec (.sample 1100 false) high20 = .next t ∧
      ∃ r ∈ newEtd high20 t, r.stop ≤ r.start :=
  ⟨inv_high, precedes_high (by decide), _, rfl, ⟨.bit, 35, 26, 0⟩, by decide, by decide⟩

/-- The waveform of the spec's vectors: 20 MHz, period 25, 16 and 8 samples high; and on a line quiet since a marker,
with the narrowest waveform the duty rule tells apart. -/
theorem test_meets_PulseTrainDecodesToItsBits :
    (low20.Running ∧ low20.Precedes 10 ∧ low20.prev = some false ∧ low20.acc = [] ∧ low20.pktIdx = none ∧
      low20.riseIdx = none ∧ low20.fallIdx = none ∧
      0 < 8 ∧ 8 < 25 ∧ 16 < 25 ∧ 2 * 8 ≤ 25 ∧ 25 < 2 * 16 ∧ (25 + 16) * 1000000 ≤ 50 * low20.samplerate) ∧
    (marked20.Running ∧ marked20.Precedes 77 ∧ marked20.prev = some false ∧ marked20.acc = [] ∧
      marked20.pktIdx = none ∧ marked20.riseIdx = none ∧ marked20.inReset = true ∧
      0 < 2 ∧ 2 < 4 ∧ 3 < 4 ∧ 2 * 2 ≤ 4 ∧ 4 < 2 * 3 ∧ (4 + 3) * 1000000 ≤ 50 * marked20.samplerate) := by
  refine ⟨⟨running_low, precedes_low, rfl, rfl, rfl, rfl, rfl, ?_⟩,
    ⟨running_low, precedes_marked (by decide), rfl, rfl, rfl, rfl, rfl, ?_⟩⟩ <;> decide

theorem test_meets_DecodeOfEncodeIsTheOperation :
    (Instr.txn (2 ^ 64 - 1) (2 ^ 64 - 1) true 0xff 0xff).wellFormed = true ∧
      (Instr.sample (2 ^ 64 - 1) true).wellFormed = true := by decide

theorem test_meets_DecodedOperationsAreWellFormed :
    decode { Bundle.ofOp 5 with idx := 9, endIdx := 17, isData := true, byte := 0x34 } =
      .ok (.txn 9 17 true 0x34 0) := by decide

theorem test_meets_UnlistedFieldsAreIgnored :
    let a : Bundle := { Bundle.ofOp 2 with idx := 7, lvl := true }
    let b : Bundle := { Bundle.ofOp 2 with idx := 7, lvl := true, rate := 1, endIdx := 3, byte := 9 }
    a.op = b.op ∧ (a.op = 1#3 → a.rate = b.rate) ∧ (a.op = 2#3 → a.idx = b.idx ∧ a.lvl = b.lvl) ∧
      (a.op = 5#3 → a.idx = b.idx ∧ a.endIdx = b.endIdx ∧ a.isData = b.isData ∧ a.byte = b.byte ∧
        a.byte2 = b.byte2) := by decide

/-- A code reserved always, one reserved without the unit, and one that is not reserved. -/
theorem test_meets_ReservedCodesAreRefused :
    step { State.reset with input := [.cmd (Bundle.ofOp 3)] } = .refused (.reservedOperation 3) ∧
    step { noBA with input := [.cmd (Bundle.ofOp 5)] } = .refused (.reservedOperation 5) ∧
    step { State.reset with input := [.cmd (Bundle.ofOp 4)] } = .next State.reset := ⟨rfl, rfl, rfl⟩

theorem test_meets_EveryOperationIsAccepted :
    (aborted20.InOrder (.sample 1007 true)) ∧
    (twoBytes.InOrder .bainit ∧ Instr.bainit.unit = .ba ∧ twoBytes.hasBA = true) ∧
    (noBA.InOrder .init ∧ Instr.init.unit = .etd) :=
  ⟨precedes_aborted (by decide), ⟨trivial, rfl, rfl⟩, ⟨trivial, rfl⟩⟩

/-- An index one above the last. -/
theorem test_meets_StepRunsDecodedOperation :
    let s : State := { high20 with input := [.cmd { Bundle.ofOp 2 with idx := 36 }, .powerOn] }
    s.input = .cmd { Bundle.ofOp 2 with idx := 36 } :: [.powerOn] ∧
      decode { Bundle.ofOp 2 with idx := 36 } = .ok (.sample 36 false) ∧
      inOrder (.sample 36 false) s.lastIdx = true := by decide

theorem test_meets_StepWithNothingPresentedChangesNothing : pixel20.input = [] := rfl

/-- An index equal to the last is refused, one above it is not. -/
theorem test_meets_UnorderedSamplesAreRefused :
    step { high20 with input := [.cmd { Bundle.ofOp 2 with idx := 35 }] } = .refused .unorderedIndex ∧
    ∃ t, step { high20 with input := [.cmd { Bundle.ofOp 2 with idx := 36 }] } = .next t := ⟨rfl, ⟨_, rfl⟩⟩

theorem test_meets_PlacedWordRunsNext : decodeTableWord 8 5 = some (.txn 0 0 false 0 0) := by decide

theorem test_meets_PulseIsARiseAndAFall :
    0 < 6 ∧ low20.Precedes 10 ∧ low20.Running ∧ low20.prev = some false ∧ low20.riseIdx = none ∧
      low20.NoResetDue (10 + 6) false :=
  ⟨by decide, precedes_low, running_low, rfl, rfl, notDue_low⟩

end Sys2Proof.Tests
end

section
/-! SUPPORT. The answer of a SAMPLE on each of its first four paths, what a SAMPLE and an operation of either unit
leave alone, and operation lists that change nothing. -/

namespace Sys2Proof.Machine

theorem State.prev_update_self {s : State} {lvl : Bool} (h : s.prev = some lvl) : { s with prev := some lvl } = s := by
  rw [← h]

/-- An aborted ETD raises its latched fault again, which writes the code already there (R76). -/
theorem execSample_aborted {s : State} (h : s.fault ≠ 0#2) (idx : Nat) (lvl : Bool) :
    execSample idx lvl s = .next s := by
  simp [execSample, h, raiseFault, latchFault]

theorem execSample_withoutRate {s : State} (hf : s.fault = 0#2) (hr : s.samplerate = 0) (idx : Nat) (lvl : Bool) :
    execSample idx lvl s = .next (latchFault faultCfg s) := by
  simp [execSample, hf, hr, raiseFault]

theorem execSample_first {s : State} (h : s.Running) (hp : s.prev = none) (idx : Nat) (lvl : Bool) :
    execSample idx lvl s = .next { s with prev := some lvl } := by
  simp [execSample, h.1, h.2, hp]

theorem execSample_withoutBitStart {s : State} {prev lvl : Bool} {idx fall : Nat} (h : s.Running)
    (hp : s.prev = some prev) (hd : s.ResetDue idx lvl fall) (hr : s.riseIdx = none) :
    execSample idx lvl s = .next (latchFault faultNoBitStart s) := by
  rw [execSample_running h hp]
  simp [sampleSteps, (resetDetected_iff idx lvl s).mpr ⟨fall, hd⟩, hr, raiseFault]

/-- A SAMPLE either does nothing but latch a fault, or keeps all that is in `SampleFrame`. -/
theorem execSample_latch_or_frame {s t : State} {idx : Nat} {lvl : Bool} (h : execSample idx lvl s = .next t) :
    (∃ code, t = latchFault code s) ∨ SampleFrame s t := by
  obtain ⟨-, rfl⟩ | ⟨-, -, rfl⟩ | ⟨-, -, rfl⟩ | ⟨-, -, -, -, -, -, rfl⟩ |
    ⟨prev, rise, fall, -, -, -, -, rfl⟩ | ⟨prev, -, -, -, rfl⟩ := execSample_cases h
  · exact .inr (.refl t)
  · exact .inl ⟨faultCfg, rfl⟩
  · exact .inr ⟨rfl, rfl, ⟨rfl, rfl⟩, rfl, ⟨rfl, rfl, rfl⟩⟩
  · exact .inl ⟨faultNoBitStart, rfl⟩
  · exact .inr ((resetPath_frame rise fall idx s).trans (edgeSteps_frame prev lvl idx _))
  · exact .inr (edgeSteps_frame prev lvl idx s)

/-- What a SAMPLE leaves alone on every path, a fault included. -/
theorem execSample_frame {s t : State} {idx : Nat} {lvl : Bool} (h : execSample idx lvl s = .next t) :
    t.samplerate = s.samplerate ∧ SameBa s t ∧ t.baOut = s.baOut ∧ SameHost s t := by
  obtain ⟨code, rfl⟩ | hframe := execSample_latch_or_frame h
  · exact ⟨rfl, ⟨rfl, rfl⟩, rfl, ⟨rfl, rfl, rfl⟩⟩
  · exact ⟨hframe.samplerate, hframe.ba, hframe.baOut, hframe.host⟩

theorem exec_etd_frame {i : Instr} {s t : State} (hu : i.unit = .etd) (h : exec i s = .next t) :
    SameBa s t ∧ t.baOut = s.baOut ∧ SameHost s t := by
  cases i with
  | init => cases h; exact ⟨⟨rfl, rfl⟩, rfl, ⟨rfl, rfl, rfl⟩⟩
  | setrate rate => cases h; exact ⟨⟨rfl, rfl⟩, rfl, ⟨rfl, rfl, rfl⟩⟩
  | sample idx lvl => exact (execSample_frame h).2
  | bainit => cases hu
  | txn => cases hu

theorem exec_ba_frame {i : Instr} {s t : State} (hu : i.unit = .ba) (h : exec i s = .next t) :
    SameEtd s t ∧ t.etdOut = s.etdOut ∧ SameHost s t := by
  cases i with
  | init => cases hu
  | setrate => cases hu
  | sample => cases hu
  | bainit =>
    obtain ⟨-, rfl⟩ := execBainit_cases h
    exact ⟨⟨rfl, rfl, rfl, rfl, rfl, rfl, rfl, rfl⟩, rfl, ⟨rfl, rfl, rfl⟩⟩
  | txn start stop isData byte byte2 =>
    obtain ⟨-, ⟨-, rfl⟩ | ⟨-, rfl⟩⟩ := execTxn_cases (byte2 := byte2) h
    · exact ⟨⟨rfl, rfl, rfl, rfl, rfl, rfl, rfl, rfl⟩, rfl, ⟨rfl, rfl, rfl⟩⟩
    · exact group_frame start stop byte s

/-- While the marker of a low period stands, a further low SAMPLE is neither an edge nor a second marker. -/
theorem exec_sample_low_after_marker {s : State} (h : s.Running) (hp : s.prev = some false) (hm : s.inReset = true)
    (idx : Nat) : exec (.sample idx false) s = .next s := by
  have hnone : s.NoResetDue idx false := fun _ hd => absurd hm (by simp [hd.notYet])
  calc execSample idx false s
    _ = sampleSteps false idx false s := execSample_running h hp idx false
    _ = .next (edgeSteps false false idx s) := sampleSteps_noMarker hnone false
    _ = .next s := by rw [edgeSteps_level, State.prev_update_self hp]

theorem execAll_eq_self {is : List Instr} {s : State} (h : ∀ i ∈ is, exec i s = .next s) :
    execAll is s = .next s := by
  induction is with
  | nil => rfl
  | cons i is ih =>
    obtain ⟨hi, his⟩ := List.forall_mem_cons.mp h
    rw [execAll, hi]
    exact ih his

theorem initEtd_etdAtReset (s : State) : (initEtd s).EtdAtReset := ⟨rfl, rfl, rfl, rfl, rfl, rfl, rfl, rfl⟩

theorem initBa_baAtReset (s : State) : (initBa s).BaAtReset := ⟨rfl, rfl⟩

theorem powerOnReset_etdAtReset (s : State) : (powerOnReset s).EtdAtReset :=
  ⟨rfl, rfl, rfl, rfl, rfl, rfl, rfl, rfl⟩

theorem exec_bainit {s : State} (h : s.hasBA = true) : exec .bainit s = .next (initBa s) := by
  simp [exec, execBainit, withBa, h]

end Sys2Proof.Machine
end

section
/-! SUPPORT. The units read nothing of each other (R10). A state is put together from the ETD of one state, the BA of a
second and the host's side of a third; an operation of a unit commutes with exchanging the other two parts. -/

namespace Sys2Proof.Machine

/-- The ETD registers and stream of `etd`, the BA registers, its stream and HAS_BA of `ba`, the host's side of
`host`. -/
def assemble (etd ba host : State) : State :=
  { etd with
    baBuf := ba.baBuf, baGrpStart := ba.baGrpStart, hasBA := ba.hasBA, baOut := ba.baOut,
    input := host.input, lastIdx := host.lastIdx }

theorem sameEtd_assemble (etd ba host : State) : SameEtd etd (assemble etd ba host) :=
  ⟨rfl, rfl, rfl, rfl, rfl, rfl, rfl, rfl⟩

theorem sameBa_assemble (etd ba host : State) : SameBa ba (assemble etd ba host) := ⟨rfl, rfl⟩

theorem assemble_of_sameEtd {s s' : State} (h : SameEtd s s') (ho : s'.etdOut = s.etdOut) : assemble s s' s' = s' := by
  simp only [assemble, ← h.samplerate, ← h.fault, ← h.prev, ← h.acc, ← h.pktIdx, ← h.riseIdx, ← h.fallIdx,
    ← h.inReset, ← ho]

theorem assemble_of_sameBa {s s' : State} (h : SameBa s s') (hb : s'.hasBA = s.hasBA) (ho : s'.baOut = s.baOut) :
    assemble s' s s' = s' := by
  simp only [assemble, ← h.baBuf, ← h.baGrpStart, ← hb, ← ho]

theorem resetPath_assemble (rise fall idx : Nat) (s ba host : State) :
    resetPath rise fall idx (assemble s ba host) = assemble (resetPath rise fall idx s) ba host := by
  rw [resetPath_eq, resetPath_eq]; rfl

theorem decidePending_assemble (idx : Nat) (s ba host : State) :
    decidePending idx (assemble s ba host) = assemble (decidePending idx s) ba host := by
  cases hr : s.riseIdx with
  | none => rw [decidePending_none (.inl hr), decidePending_none (s := assemble s ba host) (.inl hr)]
  | some rise =>
    cases hf : s.fallIdx with
    | none => rw [decidePending_none (.inr hf), decidePending_none (s := assemble s ba host) (.inr hf)]
    | some fall =>
      rw [decidePending_some hr hf, decidePending_some (s := assemble s ba host) hr hf]; rfl

theorem edgeSteps_assemble (prev lvl : Bool) (idx : Nat) (s ba host : State) :
    edgeSteps prev lvl idx (assemble s ba host) = assemble (edgeSteps prev lvl idx s) ba host := by
  cases prev <;> cases lvl
  case false.true => rw [edgeSteps_rising, edgeSteps_rising, decidePending_assemble]; rfl
  all_goals rfl

theorem resetDue_assemble {s : State} {idx fall : Nat} {lvl : Bool} (ba host : State) :
    (assemble s ba host).ResetDue idx lvl fall ↔ s.ResetDue idx lvl fall :=
  ⟨fun ⟨low, notYet, fallEdge, gap⟩ => ⟨low, notYet, fallEdge, gap⟩,
    fun ⟨low, notYet, fallEdge, gap⟩ => ⟨low, notYet, fallEdge, gap⟩⟩

theorem execSample_assemble {s t : State} {idx : Nat} {lvl : Bool} (h : execSample idx lvl s = .next t)
    (ba host : State) : execSample idx lvl (assemble s ba host) = .next (assemble t ba host) := by
  obtain ⟨hf, rfl⟩ | ⟨hf, hr, rfl⟩ | ⟨hrun, hp, rfl⟩ | ⟨prev, fall, hrun, hp, hd, hr, rfl⟩ |
    ⟨prev, rise, fall, hrun, hp, hd, hr, rfl⟩ | ⟨prev, hrun, hp, hd, rfl⟩ := execSample_cases h
  · exact execSample_aborted (s := assemble t ba host) hf idx lvl
  · exact execSample_withoutRate (s := assemble s ba host) hf hr idx lvl
  · exact execSample_first (s := assemble s ba host) hrun hp idx lvl
  · exact execSample_withoutBitStart hrun hp ((resetDue_assemble ba host).mpr hd) hr
  · rw [execSample_running (s := assemble s ba host) hrun hp,
      sampleSteps_marker ((resetDue_assemble ba host).mpr hd) hr, resetPath_assemble, edgeSteps_assemble]
  · rw [execSample_running (s := assemble s ba host) hrun hp,
      sampleSteps_noMarker fun fall hd' => hd fall ((resetDue_assemble ba host).mp hd'), edgeSteps_assemble]

theorem group_assemble (start stop : Nat) (byte : Byte) (etd s host : State) :
    closeGroup stop (pushByte byte (openGroup start (assemble etd s host))) =
      assemble etd (closeGroup stop (pushByte byte (openGroup start s))) host := by
  have hbuf : (assemble etd s host).baBuf = s.baBuf := rfl
  rw [group_eq, group_eq, hbuf]
  split <;> rfl

theorem exec_etd_assemble {i : Instr} {s t : State} (hu : i.unit = .etd) (h : exec i s = .next t)
    (ba host : State) : exec i (assemble s ba host) = .next (assemble t ba host) := by
  cases i with
  | init => cases h; rfl
  | setrate rate => cases h; rfl
  | sample idx lvl => exact execSample_assemble h ba host
  | bainit => cases hu
  | txn => cases hu

theorem exec_ba_assemble {i : Instr} {s t : State} (hu : i.unit = .ba) (h : exec i s = .next t)
    (etd host : State) : exec i (assemble etd s host) = .next (assemble etd t host) := by
  cases i with
  | init => cases hu
  | setrate => cases hu
  | sample => cases hu
  | bainit =>
    obtain ⟨hb, rfl⟩ := execBainit_cases h
    exact exec_bainit (s := assemble etd s host) hb
  | txn start stop isData byte byte2 =>
    obtain ⟨hb, h⟩ := execTxn_cases (byte2 := byte2) h
    have hb : (assemble etd s host).hasBA = true := hb
    obtain ⟨rfl, rfl⟩ | ⟨rfl, rfl⟩ := h
    · simp [exec, execTxn, withBa, hb]
    · simp [exec, execTxn, withBa, hb, group_assemble]

end Sys2Proof.Machine
end

section
/-! PROOF. The statements about the state: reset values, the frame of a SAMPLE, the two units. -/

namespace Sys2Proof.Machine

/-- Settles O21: the marker stands through the low period, so each further low SAMPLE answers the same state. -/
theorem oneResetMarkerPerLowPeriod : Obligations.OneResetMarkerPerLowPeriod := by
  intro s idxs hrun hp hm _ _
  refine execAll_eq_self fun i hi => ?_
  obtain ⟨idx, -, rfl⟩ := List.mem_map.mp hi
  exact exec_sample_low_after_marker hrun hp hm idx

/-- Settles O24, from the frame of every path of a SAMPLE. -/
theorem sampleLeavesTheRestUnchanged : Obligations.SampleLeavesTheRestUnchanged := by
  intro s t idx lvl _ h
  obtain ⟨hrate, hba, hout, hhost⟩ := execSample_frame h
  refine ⟨hrate, hba, hout, hhost, fun hfault => ?_⟩
  obtain ⟨code, rfl⟩ | hframe := execSample_latch_or_frame h
  · rfl
  · exact absurd hframe.fault hfault

/-- Settles O36, from the frame of each unit's operations. -/
theorem unitsDoNotWriteEachOther : Obligations.UnitsDoNotWriteEachOther := by
  intro i s t _ h
  cases hu : i.unit with
  | etd =>
    obtain ⟨hba, hout, hhost⟩ := exec_etd_frame hu h
    exact ⟨hhost, fun _ => ⟨hba, hout⟩, nofun⟩
  | ba =>
    obtain ⟨hetd, hout, hhost⟩ := exec_ba_frame hu h
    exact ⟨hhost, nofun, fun _ => ⟨hetd, hout⟩⟩

/-- Settles O37: the second state is the first one's own unit with other parts, and those pass through unread. -/
theorem unitsDoNotReadEachOther : Obligations.UnitsDoNotReadEachOther := by
  intro i s s' t _ h
  constructor
  · intro hu hetd hout
    have h' := exec_etd_assemble hu h s' s'
    rw [assemble_of_sameEtd hetd hout] at h'
    exact ⟨assemble t s' s', h', sameEtd_assemble t s' s', rfl⟩
  · intro hu hba hhas hout
    have h' := exec_ba_assemble hu h s' s'
    rw [assemble_of_sameBa hba hhas hout] at h'
    exact ⟨assemble s' t s', h', sameBa_assemble s' t s', rfl⟩

/-- Settles O1, from what the two initialisations write. -/
theorem resetValuesOfBothUnits : Obligations.ResetValuesOfBothUnits :=
  ⟨⟨⟨rfl, rfl, rfl, rfl, rfl, rfl, rfl, rfl⟩, ⟨rfl, rfl⟩⟩,
    fun s => ⟨powerOnReset_etdAtReset s, initBa_baAtReset (initEtd s)⟩,
    fun s => ⟨initEtd s, rfl, initEtd_etdAtReset s⟩,
    fun s hb => ⟨initBa s, exec_bainit hb, initBa_baAtReset s⟩⟩

end Sys2Proof.Machine
end

section
/-! SUPPORT. The places of the wire word's bits in the pixel, the records an operation appends to the two streams, and a
run of transactions through the Byte-Assembler. -/

namespace Sys2Proof.Machine

/-! ### The wire word and the pixel -/

/-- The bit received `k`-th from the last stands at place `k` of the wire word (R37). -/
theorem wireWord_getLsbD {acc : List Bool} (h : acc.length = 24) {k : Nat} (hk : k < 24) :
    (wireWord acc).getLsbD k = (acc[23 - k]?).getD false := by
  have hlen : acc.length - 1 - k < acc.length := by omega
  have hplace : 23 - k = acc.length - 1 - k := by omega
  rw [wireWord, BitVec.getLsbD_ofNat, accValue_testBit acc k (by omega), hplace, List.getElem?_eq_getElem hlen]
  simp [hk]

theorem reorderGrb_getLsbD (grb : Word24) (k : Nat) :
    (reorderGrb grb).getLsbD k =
      (grb.extractLsb' 8 8 ++ grb.extractLsb' 16 8 ++ grb.extractLsb' 0 8).getLsbD k := rfl

/-- The reorder swaps the upper two bytes and keeps the lower one (R38). -/
theorem reorderGrb_bytes (grb : Word24) {k : Nat} (hk : k < 8) :
    (reorderGrb grb).getLsbD (8 + k) = grb.getLsbD (16 + k) ∧
    (reorderGrb grb).getLsbD (16 + k) = grb.getLsbD (8 + k) ∧
    (reorderGrb grb).getLsbD k = grb.getLsbD k := by
  have hgreen : 8 + k - 8 = k := by omega
  have hred : 16 + k - 8 = 8 + k := by omega
  refine ⟨?_, ?_, ?_⟩ <;> rw [reorderGrb_getLsbD, BitVec.getLsbD_append]
  · rw [if_neg (by omega), hgreen, BitVec.getLsbD_append, if_pos hk]
    simp [hk]
  · rw [if_neg (by omega), hred, BitVec.getLsbD_append, if_neg (by omega), hgreen]
    simp [hk]
  · rw [if_pos hk]
    simp [hk]

/-- The BA's word is big-endian: the first byte received is the most significant (R107). -/
theorem baWord_eq (x y z : Byte) :
    baWord x y z = BitVec.ofNat 24 (x.toNat * 65536 + y.toNat * 256 + z.toNat) := by
  apply BitVec.eq_of_toNat_eq
  have hx := x.isLt
  have hy := y.isLt
  have hz := z.isLt
  rw [baWord, BitVec.toNat_append, BitVec.toNat_append, ← Nat.shiftLeft_add_eq_or_of_lt hy,
    ← Nat.shiftLeft_add_eq_or_of_lt hz, BitVec.toNat_ofNat, Nat.shiftLeft_eq, Nat.shiftLeft_eq]
  omega

/-! ### What an operation appends to the streams -/

/-- `new` is `old` with records appended, all of which meet `P`. -/
def AppendsOnly (P : Record → Prop) (old new : List Record) : Prop := ∃ rs, new = old ++ rs ∧ ∀ r ∈ rs, P r

theorem AppendsOnly.refl (P : Record → Prop) (rs : List Record) : AppendsOnly P rs rs := ⟨[], by simp⟩

theorem AppendsOnly.of_eq {P : Record → Prop} {old new : List Record} (h : new = old) : AppendsOnly P old new :=
  h ▸ .refl P old

theorem AppendsOnly.trans {P : Record → Prop} {a b c : List Record} (h : AppendsOnly P a b)
    (k : AppendsOnly P b c) : AppendsOnly P a c := by
  obtain ⟨rs, rfl, hrs⟩ := h
  obtain ⟨qs, rfl, hqs⟩ := k
  exact ⟨rs ++ qs, List.append_assoc a rs qs, List.forall_mem_append.mpr ⟨hrs, hqs⟩⟩

theorem AppendsOnly.isPrefix {P : Record → Prop} {old new : List Record} (h : AppendsOnly P old new) :
    old <+: new := by
  obtain ⟨rs, hnew, -⟩ := h
  exact ⟨rs, hnew.symm⟩

theorem AppendsOnly.forall_mem {P : Record → Prop} {old new : List Record} (h : AppendsOnly P old new)
    (hold : ∀ r ∈ old, P r) : ∀ r ∈ new, P r := by
  obtain ⟨rs, rfl, hrs⟩ := h
  exact List.forall_mem_append.mpr ⟨hold, hrs⟩

/-- On the way from `s` to `t` each unit only appends to its stream, and only records of the forms of R31 and R53. -/
structure EmitsForms (s t : State) : Prop where
  etd : AppendsOnly Record.DataForm s.etdOut t.etdOut
  ba  : AppendsOnly (fun r => r.kind = .rgb) s.baOut t.baOut

theorem bitRecord_dataForm (start stop : Nat) (b : Bool) : (bitRecord start stop b).DataForm := by
  cases b
  · exact .inl rfl
  · exact .inr rfl

theorem resetRecord_dataForm (start stop : Nat) : (resetRecord start stop).DataForm := rfl

theorem rgbRecord_dataForm (start stop : Nat) (rgb : Word24) : (rgbRecord start stop rgb).DataForm := trivial

theorem pixelRecords_dataForm (b : Bool) (boundary pos : Nat) (s : State) :
    ∀ r ∈ pixelRecords b boundary pos s, r.DataForm := by
  unfold pixelRecords
  split
  · exact List.forall_mem_singleton.mpr (rgbRecord_dataForm _ _ _)
  · exact List.forall_mem_nil _

theorem resetPath_appends (rise fall idx : Nat) (s : State) :
    AppendsOnly Record.DataForm s.etdOut (resetPath rise fall idx s).etdOut := by
  rw [resetPath_eq]
  refine ⟨_, rfl, List.forall_mem_append.mpr ⟨pixelRecords_dataForm _ _ _ _, ?_⟩⟩
  exact List.forall_mem_cons.mpr
    ⟨bitRecord_dataForm _ _ _, List.forall_mem_singleton.mpr (resetRecord_dataForm _ _)⟩

theorem decidePending_appends (idx : Nat) (s : State) :
    AppendsOnly Record.DataForm s.etdOut (decidePending idx s).etdOut := by
  cases hr : s.riseIdx with
  | none => rw [decidePending_none (.inl hr)]; exact .refl _ _
  | some rise =>
    cases hf : s.fallIdx with
    | none => rw [decidePending_none (.inr hf)]; exact .refl _ _
    | some fall =>
      rw [decidePending_some hr hf]
      exact ⟨_, rfl, List.forall_mem_cons.mpr ⟨bitRecord_dataForm _ _ _, pixelRecords_dataForm _ _ _ _⟩⟩

/-- Of the edge steps only a rising edge emits. -/
theorem edgeSteps_appends (prev lvl : Bool) (idx : Nat) (s : State) :
    AppendsOnly Record.DataForm s.etdOut (edgeSteps prev lvl idx s).etdOut := by
  cases prev <;> cases lvl
  case false.true => exact decidePending_appends idx s
  all_goals exact .refl _ _

theorem execSample_appends {s t : State} {idx : Nat} {lvl : Bool} (h : execSample idx lvl s = .next t) :
    AppendsOnly Record.DataForm s.etdOut t.etdOut := by
  obtain ⟨-, rfl⟩ | ⟨-, -, rfl⟩ | ⟨-, -, rfl⟩ | ⟨-, -, -, -, -, -, rfl⟩ |
    ⟨prev, rise, fall, -, -, -, -, rfl⟩ | ⟨prev, -, -, -, rfl⟩ := execSample_cases h
  case inr.inr.inr.inr.inl =>
    exact (resetPath_appends rise fall idx s).trans (edgeSteps_appends prev lvl idx _)
  case inr.inr.inr.inr.inr => exact edgeSteps_appends prev lvl idx s
  all_goals exact .refl _ _

theorem group_appends (start stop : Nat) (byte : Byte) (s : State) :
    AppendsOnly (fun r => r.kind = .rgb) s.baOut
      (closeGroup stop (pushByte byte (openGroup start s))).baOut := by
  rw [group_eq]
  split
  · exact .refl _ _
  · exact ⟨_, rfl, List.forall_mem_singleton.mpr rfl⟩
  · exact .refl _ _

theorem exec_emitsForms {i : Instr} {s t : State} (h : exec i s = .next t) : EmitsForms s t := by
  cases i with
  | init => cases h; exact ⟨.refl _ _, .refl _ _⟩
  | setrate rate => cases h; exact ⟨.refl _ _, .refl _ _⟩
  | sample idx lvl =>
    obtain ⟨-, -, hout, -⟩ := execSample_frame h
    exact ⟨execSample_appends h, .of_eq hout⟩
  | bainit =>
    obtain ⟨-, rfl⟩ := execBainit_cases h
    exact ⟨.refl _ _, .refl _ _⟩
  | txn start stop isData byte byte2 =>
    obtain ⟨-, ⟨-, rfl⟩ | ⟨-, rfl⟩⟩ := execTxn_cases (byte2 := byte2) h
    · exact ⟨.refl _ _, .refl _ _⟩
    · obtain ⟨-, hout, -⟩ := group_frame start stop byte s
      exact ⟨.of_eq hout, group_appends start stop byte s⟩

/-- Taking the host's item and a power-on reset emit nothing, so a step emits what its operation does. -/
theorem step_emitsForms {s t : State} (h : step s = .next t) : EmitsForms s t := by
  obtain ⟨-, rfl⟩ | ⟨rest, -, rfl⟩ | ⟨b, rest, i, -, -, -, hexec⟩ := step_cases h
  · exact ⟨.refl _ _, .refl _ _⟩
  · exact ⟨.refl _ _, .refl _ _⟩
  · obtain ⟨hetd, hba⟩ := exec_emitsForms hexec
    exact ⟨hetd, hba⟩

/-! ### A run of transactions -/

theorem exec_txn_data {x : Transaction} (hx : x.isData = true) {s : State} (h : s.hasBA = true) :
    exec x.op s = .next (closeGroup x.stop (pushByte x.byte (openGroup x.start s))) := by
  simp [exec, Transaction.op, execTxn, withBa, hx, h]

theorem exec_txn_notData {x : Transaction} (hx : x.isData = false) {s : State} (h : s.hasBA = true) :
    exec x.op s = .next s := by
  simp [exec, Transaction.op, execTxn, withBa, hx, h]

/-- Transactions that are not DATA may be left out of a run (R55). -/
theorem execAll_txns_eq_filter_data (xs : List Transaction) (s : State) (h : s.hasBA = true) :
    execAll (xs.map Transaction.op) s = execAll ((xs.filter (·.isData)).map Transaction.op) s := by
  induction xs generalizing s with
  | nil => rfl
  | cons x xs ih =>
    cases hx : x.isData with
    | false => simpa [hx, execAll, exec_txn_notData hx h] using ih s h
    | true =>
      obtain ⟨-, -, hhost⟩ := group_frame x.start x.stop x.byte s
      simpa [hx, execAll, exec_txn_data hx h] using ih _ (hhost.hasBA.trans h)

/-- Three DATA transactions on an empty buffer emit one record and leave the buffer empty (R106, R107). -/
theorem execAll_data_triple {a b c : Transaction} (ha : a.isData = true) (hb : b.isData = true)
    (hc : c.isData = true) (is : List Instr) {s : State} (h : s.hasBA = true) (hbuf : s.baBuf = []) :
    execAll (a.op :: b.op :: c.op :: is) s =
      execAll is { s with baGrpStart := some a.start, baOut := s.baOut ++ triples [a, b, c] } := by
  simp [execAll, exec_txn_data, group_eq, ha, hb, hc, h, hbuf, triples, baWord_eq, rgbRecord]

/-- DATA transactions alone, from an empty buffer: the whole next state but for the group start. -/
theorem execAll_data (xs : List Transaction) (s : State) (hdata : ∀ x ∈ xs, x.isData = true)
    (h : s.hasBA = true) (hbuf : s.baBuf = []) :
    ∃ grp, execAll (xs.map Transaction.op) s =
      .next { s with baBuf := leftOver xs, baGrpStart := grp, baOut := s.baOut ++ triples xs } := by
  match xs with
  | [] => exact ⟨s.baGrpStart, by simp [execAll, leftOver, triples, ← hbuf]⟩
  | [a] =>
    have ha := hdata a (by simp)
    exact ⟨some a.start, by simp [execAll, exec_txn_data, group_eq, ha, h, hbuf, leftOver, triples]⟩
  | [a, b] =>
    have ha := hdata a (by simp)
    have hb := hdata b (by simp)
    exact ⟨some a.start, by simp [execAll, exec_txn_data, group_eq, ha, hb, h, hbuf, leftOver, triples]⟩
  | a :: b :: c :: rest =>
    simp only [List.forall_mem_cons] at hdata
    obtain ⟨ha, hb, hc, hrest⟩ := hdata
    obtain ⟨grp, hrun⟩ := execAll_data rest
      { s with baGrpStart := some a.start, baOut := s.baOut ++ triples [a, b, c] } hrest h hbuf
    refine ⟨grp, ?_⟩
    rw [List.map_cons, List.map_cons, List.map_cons, execAll_data_triple ha hb hc _ h hbuf, hrun]
    simp [leftOver, triples]

end Sys2Proof.Machine
end

section
/-! PROOF. The statements about the streams and the values they carry. -/

namespace Sys2Proof.Machine

/-- Settles O35: the transactions that are not DATA drop out, and the others are taken three at a time. -/
theorem baStreamIsTheTriplesOfDataBytes : Obligations.BaStreamIsTheTriplesOfDataBytes := by
  intro xs s h hbuf
  have hdata : ∀ x ∈ xs.filter (·.isData), x.isData = true := fun x hx => (List.mem_filter.mp hx).2
  obtain ⟨grp, hrun⟩ := execAll_data (xs.filter (·.isData)) s hdata h hbuf
  exact ⟨_, (execAll_txns_eq_filter_data xs s h).trans hrun, rfl, rfl,
    ⟨rfl, rfl, rfl, rfl, rfl, rfl, rfl, rfl⟩, rfl⟩

/-- Settles O26: the wire word holds the bits in the order received, and the reorder moves whole bytes. -/
theorem pixelBitsComeFromTheirWirePlaces : Obligations.PixelBitsComeFromTheirWirePlaces := by
  intro bits hlen k hk
  obtain ⟨hgreen, hred, hblue⟩ := reorderGrb_bytes (wireWord bits) hk
  refine ⟨?_, ?_, ?_⟩
  · rw [hgreen, wireWord_getLsbD hlen (by omega), Nat.sub_add_eq]
  · rw [hred, wireWord_getLsbD hlen (by omega), Nat.sub_add_eq]
  · rw [hblue, wireWord_getLsbD hlen (by omega)]

/-- Settles O39, from what a step appends. -/
theorem streamsOnlyGrow : Obligations.StreamsOnlyGrow := by
  intro s t h
  obtain ⟨hetd, hba⟩ := step_emitsForms h
  exact ⟨hetd.isPrefix, hba.isPrefix⟩

/-- Settles O40, from the forms of what a step appends. -/
theorem recordFormsAreKept : Obligations.RecordFormsAreKept := by
  intro s t hforms h
  obtain ⟨hetd, hba⟩ := step_emitsForms h
  exact ⟨hetd.forall_mem hforms.etd, hba.forall_mem hforms.ba⟩

end Sys2Proof.Machine
end

section
/-! SUPPORT. The decoder code by code, the codes of the operations, and what a record's bundle and label hold. -/

namespace Sys2Proof

/-! ### The decoder (R46) -/

theorem decode_init {b : Bundle} (h : b.op = 0#3) : decode b = .ok .init := by
  simp [decode, h]

theorem decode_setrate {b : Bundle} (h : b.op = 1#3) : decode b = .ok (.setrate b.rate.toNat) := by
  simp [decode, h]

theorem decode_sample {b : Bundle} (h : b.op = 2#3) : decode b = .ok (.sample b.idx.toNat b.lvl) := by
  simp [decode, h]

theorem decode_bainit {b : Bundle} (h : b.op = 4#3) : decode b = .ok .bainit := by
  simp [decode, h]

theorem decode_txn {b : Bundle} (h : b.op = 5#3) :
    decode b = .ok (.txn b.idx.toNat b.endIdx.toNat b.isData b.byte b.byte2) := by
  simp [decode, h]

theorem decode_reserved {b : Bundle} (h : b.op = 3#3 ∨ b.op = 6#3 ∨ b.op = 7#3) :
    decode b = .error (.reservedCode b.op) := by
  obtain h | h | h := h <;> simp [decode, h]

/-- A code is one of the five of R46 or reserved. -/
theorem opcode_cases (op : BitVec 3) :
    op = 0#3 ∨ op = 1#3 ∨ op = 2#3 ∨ op = 4#3 ∨ op = 5#3 ∨ op = 3#3 ∨ op = 6#3 ∨ op = 7#3 := by
  revert op; decide

theorem toNat_fitsIndex (v : BitVec Config.idxW) : fitsIndex v.toNat = true :=
  (Machine.fitsIndex_iff _).mpr v.isLt

theorem toNat_fitsRate (v : BitVec Config.rateW) : fitsRate v.toNat = true :=
  (Machine.fitsRate_iff _).mpr v.isLt

/-- An index that fits its field is read back from it. -/
theorem toNat_ofNat_idxW {n : Nat} (h : fitsIndex n = true) : (BitVec.ofNat Config.idxW n).toNat = n :=
  (BitVec.toNat_ofNat n Config.idxW).trans (Nat.mod_eq_of_lt ((Machine.fitsIndex_iff n).mp h))

theorem toNat_ofNat_rateW {n : Nat} (h : fitsRate n = true) : (BitVec.ofNat Config.rateW n).toNat = n :=
  (BitVec.toNat_ofNat n Config.rateW).trans (Nat.mod_eq_of_lt ((Machine.fitsRate_iff n).mp h))

/-- The encoder is a right inverse of the decoder on the operations whose operands fit their fields. -/
theorem decode_encode {i : Instr} (h : i.wellFormed = true) : decode (encode i) = .ok i := by
  cases i with
  | init => exact decode_init rfl
  | setrate rate =>
    have hrate := toNat_ofNat_rateW h
    rw [decode_setrate (b := encode (.setrate rate)) rfl]
    simp only [encode, hrate]
  | sample idx lvl =>
    have hidx := toNat_ofNat_idxW h
    rw [decode_sample (b := encode (.sample idx lvl)) rfl]
    simp only [encode, hidx]
  | bainit => exact decode_bainit rfl
  | txn start stop isData byte byte2 =>
    obtain ⟨hstart, hstop⟩ := Bool.and_eq_true_iff.mp h
    rw [decode_txn (b := encode (.txn start stop isData byte byte2)) rfl]
    simp only [encode, toNat_ofNat_idxW hstart, toNat_ofNat_idxW hstop]

/-- What a bundle decodes to has the bundle's code and operands that fit their fields. -/
theorem decode_wellFormed_opcode {b : Bundle} {i : Instr} (h : decode b = .ok i) :
    i.wellFormed = true ∧ i.opcode = b.op := by
  obtain hop | hop | hop | hop | hop | hop := opcode_cases b.op
  · rw [decode_init hop] at h
    cases h
    exact ⟨rfl, hop.symm⟩
  · rw [decode_setrate hop] at h
    cases h
    exact ⟨toNat_fitsRate b.rate, hop.symm⟩
  · rw [decode_sample hop] at h
    cases h
    exact ⟨toNat_fitsIndex b.idx, hop.symm⟩
  · rw [decode_bainit hop] at h
    cases h
    exact ⟨rfl, hop.symm⟩
  · rw [decode_txn hop] at h
    cases h
    exact ⟨Bool.and_eq_true_iff.mpr ⟨toNat_fitsIndex b.idx, toNat_fitsIndex b.endIdx⟩, hop.symm⟩
  · rw [decode_reserved hop] at h
    cases h

/-- No operation has a reserved code, and those of the BA have the codes 4 and 5 (R46). -/
theorem Instr.opcode_not_reserved (i : Instr) : ¬ (i.opcode = 3#3 ∨ i.opcode = 6#3 ∨ i.opcode = 7#3) := by
  cases i <;> simp [Instr.opcode]

theorem Instr.unit_eq_ba_iff (i : Instr) : i.unit = .ba ↔ i.opcode = 4#3 ∨ i.opcode = 5#3 := by
  cases i <;> simp [Instr.unit, Instr.opcode]

/-- A bundle fails to decode on a reserved code only, and the error names it (R56). -/
theorem decode_eq_error {b : Bundle} {op : BitVec 3} (h : decode b = .error (.reservedCode op)) :
    (b.op = 3#3 ∨ b.op = 6#3 ∨ b.op = 7#3) ∧ op = b.op := by
  obtain hop | hop | hop | hop | hop | hop := opcode_cases b.op
  · simp [decode_init hop] at h
  · simp [decode_setrate hop] at h
  · simp [decode_sample hop] at h
  · simp [decode_bainit hop] at h
  · simp [decode_txn hop] at h
  · rw [decode_reserved hop] at h
    cases h
    exact ⟨hop, rfl⟩

namespace Machine

/-! ### Records at the port (R50, R51, R58) -/

theorem kindCode_ne_three (k : RecKind) : kindCode k ≠ 3#2 := by
  cases k <;> decide

/-- The `k`-th hexadecimal digit of a word, most significant first. -/
def hexNibble (w : Word24) (k : Fin 6) : BitVec 4 := w.extractLsb' (20 - 4 * k) 4

theorem label_bit (start stop : Nat) (b : Bool) :
    label (bitRecord start stop b) = [if b then '1' else '0'] := by
  cases b <;> simp [label, bitRecord, bitData_eq]

theorem label_rgb (start stop : Nat) (rgb : Word24) :
    label ⟨.rgb, start, stop, rgb⟩ =
      ['#', hexDigit (hexNibble rgb 0), hexDigit (hexNibble rgb 1), hexDigit (hexNibble rgb 2),
        hexDigit (hexNibble rgb 3), hexDigit (hexNibble rgb 4), hexDigit (hexNibble rgb 5)] := rfl

theorem hexNibble_toNat (w : Word24) (k : Fin 6) :
    (hexNibble w k).toNat = w.toNat / 2 ^ (20 - 4 * k.val) % 16 := by
  rw [hexNibble, BitVec.extractLsb'_toNat, Nat.shiftRight_eq_div_pow]

/-- A word is the number its six digits spell. -/
theorem toNat_eq_hexNibbles (w : Word24) :
    w.toNat = (hexNibble w 0).toNat * 1048576 + (hexNibble w 1).toNat * 65536 +
      (hexNibble w 2).toNat * 4096 + (hexNibble w 3).toNat * 256 + (hexNibble w 4).toNat * 16 +
      (hexNibble w 5).toNat := by
  have hlt := w.isLt
  simp only [hexNibble_toNat]
  norm_num
  omega

end Machine
end Sys2Proof
end

section
/-! SUPPORT. Which operations are accepted, what the step answers to a bundle, what an operation can latch in FAULT,
and a SAMPLE that begins or ends a pulse. -/

namespace Sys2Proof.Machine

/-! ### Accepted and refused operations -/

/-- A SAMPLE is never refused, in any state (R135). -/
theorem execSample_accepts (idx : Nat) (lvl : Bool) (s : State) : ∃ t, execSample idx lvl s = .next t := by
  by_cases hf : s.fault = 0#2
  case neg => exact ⟨_, execSample_aborted hf idx lvl⟩
  by_cases hrate : s.samplerate = 0
  case pos => exact ⟨_, execSample_withoutRate hf hrate idx lvl⟩
  have hrun : s.Running := ⟨hf, hrate⟩
  cases hp : s.prev with
  | none => exact ⟨_, execSample_first hrun hp idx lvl⟩
  | some prev =>
    by_cases hd : ∃ fall, s.ResetDue idx lvl fall
    · obtain ⟨fall, hd⟩ := hd
      cases hr : s.riseIdx with
      | none => exact ⟨_, execSample_withoutBitStart hrun hp hd hr⟩
      | some rise => exact ⟨_, (execSample_running hrun hp idx lvl).trans (sampleSteps_marker hd hr prev)⟩
    · exact ⟨_, (execSample_running hrun hp idx lvl).trans (sampleSteps_noMarker (not_exists.mp hd) prev)⟩

theorem exec_etd_accepts {i : Instr} (hu : i.unit = .etd) (s : State) : ∃ t, exec i s = .next t := by
  cases i with
  | init => exact ⟨_, rfl⟩
  | setrate rate => exact ⟨_, rfl⟩
  | sample idx lvl => exact execSample_accepts idx lvl s
  | bainit => cases hu
  | txn => cases hu

theorem exec_ba_accepts {i : Instr} (hu : i.unit = .ba) {s : State} (h : s.hasBA = true) :
    ∃ t, exec i s = .next t := by
  cases i with
  | init => cases hu
  | setrate => cases hu
  | sample => cases hu
  | bainit => exact ⟨_, exec_bainit h⟩
  | txn start stop isData byte byte2 =>
    cases isData
    · exact ⟨_, exec_txn_notData (x := ⟨start, stop, false, byte, byte2⟩) rfl h⟩
    · exact ⟨_, exec_txn_data (x := ⟨start, stop, true, byte, byte2⟩) rfl h⟩

/-- Without the unit its operations are refused by their code (R56). -/
theorem exec_ba_absent {i : Instr} (hu : i.unit = .ba) {s : State} (h : s.hasBA = false) :
    exec i s = .refused (.reservedOperation i.opcode) := by
  cases i with
  | init => cases hu
  | setrate => cases hu
  | sample => cases hu
  | bainit => simp [exec, execBainit, withBa, h, Instr.opcode]
  | txn => simp [exec, execTxn, withBa, h, Instr.opcode]

/-- The order of R147 is asked of SAMPLE only. -/
theorem inOrder_of_unit_ba {i : Instr} (hu : i.unit = .ba) (lastIdx : Option Nat) : inOrder i lastIdx = true := by
  cases i with
  | init => cases hu
  | setrate => cases hu
  | sample => cases hu
  | bainit => rfl
  | txn => rfl

/-! ### The step on a bundle -/

section
variable {s : State} {b : Bundle} {rest : List HostItem}

theorem step_reserved (hi : s.input = .cmd b :: rest) {op : BitVec 3}
    (hd : decode b = .error (.reservedCode op)) : step s = .refused (.reservedOperation op) := by
  rw [step, fetch_reserved hi hd]

theorem step_inOrder (hi : s.input = .cmd b :: rest) {i : Instr} (hd : decode b = .ok i)
    (ho : inOrder i s.lastIdx = true) : step s = exec i (takeOp i rest s) := by
  simp [step, fetch, hi, hd, ho]

theorem step_unordered (hi : s.input = .cmd b :: rest) {i : Instr} (hd : decode b = .ok i)
    (ho : inOrder i s.lastIdx = false) : step s = .refused .unorderedIndex := by
  simp [step, fetch, hi, hd, ho]

/-- A bundle that decodes is refused as reserved exactly when it is one of the BA's and the unit is absent. -/
theorem step_decoded_refuses_reserved_iff (hi : s.input = .cmd b :: rest) {i : Instr} (hd : decode b = .ok i)
    (op : BitVec 3) :
    step s = .refused (.reservedOperation op) ↔ i.unit = .ba ∧ s.hasBA = false ∧ op = i.opcode := by
  cases hu : i.unit with
  | etd =>
    cases ho : inOrder i s.lastIdx with
    | false => simp [step_unordered hi hd ho]
    | true =>
      obtain ⟨t, hexec⟩ := exec_etd_accepts hu (takeOp i rest s)
      simp [step_inOrder hi hd ho, hexec]
  | ba =>
    rw [step_inOrder hi hd (inOrder_of_unit_ba hu _)]
    cases hb : s.hasBA with
    | true =>
      obtain ⟨t, hexec⟩ := exec_ba_accepts hu (s := takeOp i rest s) hb
      simp [hexec]
    | false => simp [exec_ba_absent hu (s := takeOp i rest s) hb, eq_comm]

/-- The codes a step refuses as reserved, and the code it names (R56). -/
theorem step_refuses_reserved_iff (hi : s.input = .cmd b :: rest) (op : BitVec 3) :
    step s = .refused (.reservedOperation op) ↔
      (b.op = 3#3 ∨ b.op = 6#3 ∨ b.op = 7#3 ∨ (s.hasBA = false ∧ (b.op = 4#3 ∨ b.op = 5#3))) ∧ op = b.op := by
  cases hd : decode b with
  | error e =>
    obtain ⟨code⟩ := e
    obtain ⟨hreserved, rfl⟩ := decode_eq_error hd
    rw [step_reserved hi hd]
    constructor
    · intro h
      cases h
      exact ⟨by tauto, rfl⟩
    · rintro ⟨-, rfl⟩
      rfl
  | ok i =>
    have hcode := (decode_wellFormed_opcode hd).2
    have hreserved := i.opcode_not_reserved
    rw [step_decoded_refuses_reserved_iff hi hd, i.unit_eq_ba_iff, ← hcode]
    tauto

end

/-! ### The fault latch -/

/-- The only codes a SAMPLE writes to FAULT are CFG and NOBITSTART (R120). -/
theorem execSample_fault {s t : State} {idx : Nat} {lvl : Bool} (h : execSample idx lvl s = .next t) :
    t.fault = s.fault ∨ t.fault = faultCfg ∨ t.fault = faultNoBitStart := by
  obtain ⟨-, rfl⟩ | ⟨-, -, rfl⟩ | ⟨-, -, rfl⟩ | ⟨-, -, -, -, -, -, rfl⟩ |
    ⟨prev, rise, fall, -, -, -, -, rfl⟩ | ⟨prev, -, -, -, rfl⟩ := execSample_cases h
  · exact .inl rfl
  · exact .inr (.inl rfl)
  · exact .inl rfl
  · exact .inr (.inr rfl)
  · exact .inl ((edgeSteps_fault prev lvl idx _).trans (resetPath_frame rise fall idx s).fault)
  · exact .inl (edgeSteps_fault prev lvl idx s)

theorem exec_fault_ne_three {i : Instr} {s t : State} (hs : s.fault ≠ 3#2) (h : exec i s = .next t) :
    t.fault ≠ 3#2 := by
  cases i with
  | init => cases h; simp
  | setrate rate => cases h; exact hs
  | sample idx lvl =>
    obtain hf | hf | hf := execSample_fault h <;> rw [hf]
    · exact hs
    · decide
    · decide
  | bainit =>
    obtain ⟨hsame, -⟩ := exec_ba_frame rfl h
    exact hsame.fault ▸ hs
  | txn =>
    obtain ⟨hsame, -⟩ := exec_ba_frame rfl h
    exact hsame.fault ▸ hs

theorem step_fault_ne_three {s t : State} (hs : s.fault ≠ 3#2) (h : step s = .next t) : t.fault ≠ 3#2 := by
  obtain ⟨-, rfl⟩ | ⟨rest, -, rfl⟩ | ⟨b, rest, i, -, -, -, hexec⟩ := step_cases h
  · exact hs
  · simp [powerOnReset]
  · exact exec_fault_ne_three (s := takeOp i rest s) hs hexec

theorem faultOut_iff (s : State) : faultOut s = true ↔ s.fault ≠ 0#2 := bne_iff_ne

/-! ### The two edges of a pulse -/

/-- A rising edge with no pending bit starts one, and a packet if none is pending (R87). -/
theorem exec_sample_rising {s : State} (h : s.Running) (hp : s.prev = some false) (hr : s.riseIdx = none)
    (idx : Nat) :
    exec (.sample idx true) s =
      .next { s with prev := some true, riseIdx := some idx, pktIdx := some (s.pktIdx.getD idx) } :=
  calc execSample idx true s
    _ = sampleSteps false idx true s := execSample_running h hp idx true
    _ = .next (edgeSteps false true idx s) := sampleSteps_noMarker (noResetDue_high s idx) false
    _ = _ := by rw [edgeSteps_rising, decidePending_none (.inl hr)]; rfl

/-- A falling edge with no marker due records the pulse end (R81). -/
theorem exec_sample_falling {s : State} {idx : Nat} (hd : s.NoResetDue idx false) (h : s.Running)
    (hp : s.prev = some true) :
    exec (.sample idx false) s =
      .next { s with prev := some false, inReset := false, fallIdx := some idx } :=
  calc execSample idx false s
    _ = sampleSteps true idx false s := execSample_running h hp idx false
    _ = .next (edgeSteps true false idx s) := sampleSteps_noMarker hd true
    _ = _ := by rw [edgeSteps_falling]; rfl

end Sys2Proof.Machine
end

section
/-! PROOF. The statements about the encoding: bundles in, records and labels out, refused codes, PULSE. -/

namespace Sys2Proof.Machine

/-- Settles O47, operation by operation: every operand that fits its field is read back from it. -/
theorem decodeOfEncodeIsTheOperation : Obligations.DecodeOfEncodeIsTheOperation :=
  fun _ h => decode_encode h

/-- Settles O13: FAULT is written by SAMPLE with CFG or NOBITSTART and by the initialisations with 0. -/
theorem faultCodeThreeIsNeverLatched : Obligations.FaultCodeThreeIsNeverLatched :=
  fun _ t hs h => ⟨step_fault_ne_three hs h, faultOut_iff t, rfl⟩

/-- Settles O29: the digits are the word's six nibbles. -/
theorem labelsSpellTheData : Obligations.LabelsSpellTheData :=
  ⟨fun start stop rgb => ⟨hexNibble rgb, label_rgb start stop rgb, toNat_eq_hexNibbles rgb⟩,
    fun start stop => ⟨label_bit start stop false, label_bit start stop true, rfl⟩, by decide⟩

/-- Settles O51, from the codes the step refuses as reserved. -/
theorem reservedCodesAreRefused : Obligations.ReservedCodesAreRefused := by
  intro s b rest hi
  simp only [step_refuses_reserved_iff hi]
  exact ⟨⟨fun h => ⟨b.op, h, rfl⟩, fun ⟨_, h, _⟩ => h⟩, fun _ ⟨_, hop⟩ => hop⟩

/-- Settles O57: the rising edge does not touch what the RESET condition of the falling one reads. -/
theorem pulseIsARiseAndAFall : Obligations.PulseIsARiseAndAFall := by
  intro s t h _ _ hrun hp hr hd
  have hd' : State.NoResetDue
      { s with prev := some true, riseIdx := some t, pktIdx := some (s.pktIdx.getD t) } (t + h) false :=
    fun fall ⟨low, notYet, fallEdge, gap⟩ => hd fall ⟨low, notYet, fallEdge, gap⟩
  have hfall := exec_sample_falling hd' hrun rfl
  simp only [TextOp.expand, pulseOps, execAll, exec_sample_rising hrun hp hr t, hfall]

/-- Settles O30: each field holds its part of the record. -/
theorem recordBundleCarriesRecord : Obligations.RecordBundleCarriesRecord :=
  ⟨⟨rfl, rfl, rfl⟩, fun r hstart hstop =>
    ⟨rfl, toNat_ofNat_idxW hstart, toNat_ofNat_idxW hstop, rfl, kindCode_ne_three r.kind⟩⟩

/-- Settles O32, from the rule of a transaction that is not DATA. -/
theorem nonDataTransactionIsIgnored : Obligations.NonDataTransactionIsIgnored :=
  fun _ start stop byte byte2 h => exec_txn_notData (x := ⟨start, stop, false, byte, byte2⟩) rfl h

/-- Settles O34: `byte2` stands nowhere in TXN, and `byte` under DATA only. -/
theorem secondaryByteIsNeverRead : Obligations.SecondaryByteIsNeverRead :=
  fun _ _ _ _ _ _ _ _ => ⟨rfl, rfl⟩

/-- Settles O48: the operands come from fields, so they fit, and so the encoding decodes. -/
theorem decodedOperationsAreWellFormed : Obligations.DecodedOperationsAreWellFormed := by
  intro b i h
  obtain ⟨hwf, hop⟩ := decode_wellFormed_opcode h
  exact ⟨hwf, hop, decode_encode hwf⟩

/-- Settles O49, code by code: what the decoder gives names the listed fields only. -/
theorem unlistedFieldsAreIgnored : Obligations.UnlistedFieldsAreIgnored := by
  intro a b hop hsetrate hsample htxn
  obtain h | h | h | h | h | h := opcode_cases a.op <;> have hb := hop ▸ h
  · rw [decode_init h, decode_init hb]
  · rw [decode_setrate h, decode_setrate hb, hsetrate h]
  · obtain ⟨hidx, hlvl⟩ := hsample h
    rw [decode_sample h, decode_sample hb, hidx, hlvl]
  · rw [decode_bainit h, decode_bainit hb]
  · obtain ⟨hidx, hend, hdata, hbyte, hbyte2⟩ := htxn h
    rw [decode_txn h, decode_txn hb, hidx, hend, hdata, hbyte, hbyte2]
  · rw [decode_reserved h, decode_reserved hb, hop]

/-- Settles O50, from the decoder at each code. -/
theorem bundlesOfTheSpecDecode : Obligations.BundlesOfTheSpecDecode :=
  ⟨decode_init rfl, decode_setrate rfl, decode_sample rfl, decode_bainit rfl, decode_txn rfl,
    decode_reserved (.inl rfl)⟩

end Sys2Proof.Machine
end

section
/-! SUPPORT. A SAMPLE that meets a marker, the records of a marker that completes no pixel, and a step with nothing
presented. -/

namespace Sys2Proof.Machine

/-- A due marker with a pending bit runs the RESET path, then the edge steps (R75 steps 2 to 4). -/
theorem exec_sample_marker {s : State} {prev lvl : Bool} {idx rise fall : Nat} (h : s.Running)
    (hp : s.prev = some prev) (hd : s.ResetDue idx lvl fall) (hr : s.riseIdx = some rise) :
    exec (.sample idx lvl) s = .next (edgeSteps prev lvl idx (resetPath rise fall idx s)) :=
  (execSample_running h hp idx lvl).trans (sampleSteps_marker hd hr prev)

/-- Only a rising edge emits, and a low SAMPLE is none. -/
theorem edgeSteps_low_etdOut (prev : Bool) (idx : Nat) (s : State) :
    (edgeSteps prev false idx s).etdOut = s.etdOut := by
  cases prev <;> rfl

theorem bitRecord_highTime (start stop : Nat) (dur : Int) (rate : Nat) :
    bitRecord start stop (highTimeBit dur rate) =
      ⟨.bit, start, stop, if dur * 1000000000 ≥ 625 * (rate : Int) then 1 else 0⟩ := by
  simp only [bitRecord, bitData_eq, highTimeBit_iff]

theorem pixelRecords_partial {s : State} (h : s.acc.length ≠ 23) (b : Bool) (boundary pos : Nat) :
    pixelRecords b boundary pos s = [] := if_neg h

/-- A marker whose bit is not the 24th emits that bit, classified at the rate of the state, then RESET (R82, R83). -/
theorem resetPath_etdOut_partial {s : State} (h : s.acc.length ≠ 23) (rise fall idx : Nat) :
    (resetPath rise fall idx s).etdOut = s.etdOut ++
      [⟨.bit, rise, fall, if ((fall : Int) - rise) * 1000000000 ≥ 625 * (s.samplerate : Int) then 1 else 0⟩,
        ⟨.reset, fall, idx, 0⟩] := by
  rw [resetPath_eq, pixelRecords_partial h, bitRecord_highTime]
  rfl

theorem step_idle {s : State} (h : s.input = []) : step s = .next s := by
  simp [step, fetch, h]

end Sys2Proof.Machine
end

section
/-! PROOF. The statements about session control: INIT, SETRATE and the step with nothing presented. -/

namespace Sys2Proof.Machine

/-- Settles O4: SETRATE answers `s` at the new rate, and each clause is one path of a SAMPLE from there. -/
theorem setrateCornerCases : Obligations.SetrateCornerCases := by
  intro s t rate h
  cases h
  refine ⟨?rateZero, ?marker, ?aborted, rfl⟩
  case rateZero =>
    intro hrate hf idx lvl _
    exact execSample_withoutRate (s := { s with samplerate := rate }) hf hrate idx lvl
  case marker =>
    intro idx rise fall _ hf hrate hp hnotYet hacc hr hfall hgap
    have hrun : State.Running { s with samplerate := rate } := ⟨hf, hrate⟩
    have hd : State.ResetDue { s with samplerate := rate } idx false fall := ⟨rfl, hnotYet, hfall, hgap⟩
    have hlen : s.acc.length ≠ 23 := by simp [hacc]
    exact ⟨_, exec_sample_marker hrun hp hd hr, (edgeSteps_low_etdOut false idx _).trans
      (resetPath_etdOut_partial (s := { s with samplerate := rate }) hlen rise fall idx)⟩
  case aborted =>
    intro hf
    exact ⟨rfl, fun idx lvl _ => execSample_aborted (s := { s with samplerate := rate }) hf idx lvl⟩

/-- Settles O2: INIT is `initEtd`, after which the rate is 0 with no fault latched. -/
theorem initClearsTheEtdOnly : Obligations.InitClearsTheEtdOnly :=
  ⟨fun _ => decode_init, fun s => ⟨rfl, rfl, execSample_withoutRate (s := initEtd s) rfl rfl⟩⟩

/-- Settles O3, from the decoder at code 1 and the one write of SETRATE. -/
theorem setrateWritesSamplerateOnly : Obligations.SetrateWritesSamplerateOnly :=
  ⟨fun _ => decode_setrate, fun _ _ => rfl⟩

/-- Settles O54: the step has no item to take. -/
theorem stepWithNothingPresentedChangesNothing : Obligations.StepWithNothingPresentedChangesNothing :=
  fun _ => step_idle

end Sys2Proof.Machine
end

section
/-! SUPPORT. The records a decided bit gives as the spec writes them, a SAMPLE that meets no marker, and what a SAMPLE
does to the registers of the pulse end and to the records of a session. -/

namespace Sys2Proof.Machine

/-! ### Decided bits and completed pixels -/

/-- The pixel R86 writes is the reordered wire word: the bytes of the word stand in the order green, red, blue. -/
theorem reorderGrb_wireWord {bits : List Bool} (h : bits.length = 24) :
    reorderGrb (wireWord bits) = pixelOf bits := by
  have hlt : wireSum bits < 16777216 := by
    have := accValue_lt bits
    rwa [h, wireSum_eq h] at this
  have hbyte (k : Nat) : ((wireWord bits).extractLsb' k 8).toNat = wireSum bits / 2 ^ k % 256 := by
    rw [BitVec.extractLsb'_toNat, wireWord, BitVec.toNat_ofNat, wireSum_eq h, Nat.mod_eq_of_lt hlt,
      Nat.shiftRight_eq_div_pow]
  calc reorderGrb (wireWord bits)
    _ = baWord ((wireWord bits).extractLsb' 8 8) ((wireWord bits).extractLsb' 16 8)
          ((wireWord bits).extractLsb' 0 8) := rfl
    _ = pixelOf bits := by
        rw [baWord_eq, hbyte, hbyte, hbyte]
        simp [pixelOf]

theorem bitRecord_eq (start stop : Nat) (b : Bool) :
    bitRecord start stop b = ⟨.bit, start, stop, if b then 1 else 0⟩ := by
  rw [bitRecord, bitData_eq]

theorem highTimeBit_eq_decide (dur : Int) (rate : Nat) :
    highTimeBit dur rate = decide (dur * 1000000000 ≥ 625 * (rate : Int)) := by
  rw [Bool.eq_iff_iff, highTimeBit_iff, decide_eq_true_iff]

theorem dutyBit_eq_decide (duty period : Int) : dutyBit duty period = decide (2 * duty > period) := by
  rw [Bool.eq_iff_iff, dutyBit_iff, decide_eq_true_iff]

theorem pixelRecords_eq {s : State} {pkt : Nat} (h : s.pktIdx = some pkt) (b : Bool) (boundary pos : Nat) :
    pixelRecords b boundary pos s =
      if s.acc.length = 23 then [⟨.rgb, pkt, boundary, pixelOf (s.acc ++ [b])⟩] else [] := by
  unfold pixelRecords
  split
  · next hlen =>
    have hfull : (s.acc ++ [b]).length = 24 := by simp [hlen]
    rw [h, readIndex_some, reorderGrb_wireWord hfull, rgbRecord]
  · rfl

/-! ### A SAMPLE with no marker -/

theorem exec_sample_noMarker {s : State} {prev lvl : Bool} {idx : Nat} (h : s.Running) (hp : s.prev = some prev)
    (hd : s.NoResetDue idx lvl) : exec (.sample idx lvl) s = .next (edgeSteps prev lvl idx s) :=
  (execSample_running h hp idx lvl).trans (sampleSteps_noMarker hd prev)

/-- A rising edge, whatever is pending: the pending bit, then the start of the next (R84, R87). -/
theorem exec_sample_rising_eq {s : State} (h : s.Running) (hp : s.prev = some false) (idx : Nat) :
    exec (.sample idx true) s = .next { startBit idx (decidePending idx s) with prev := some true } :=
  exec_sample_noMarker h hp (noResetDue_high s idx)

section
variable {s : State} {rise fall pkt : Nat}

/-- A rising edge that decides a bit which completes no pixel (R84). -/
theorem exec_sample_rising_bit (h : s.Running) (hp : s.prev = some false) (hr : s.riseIdx = some rise)
    (hf : s.fallIdx = some fall) (hpkt : s.pktIdx = some pkt) (hlen : s.acc.length ≠ 23) (idx : Nat) :
    let b := dutyBit (indexDiff fall rise) (indexDiff idx rise)
    exec (.sample idx true) s =
      .next { s with
        prev := some true, riseIdx := some idx, acc := s.acc ++ [b],
        etdOut := s.etdOut ++ [⟨.bit, rise, idx, if b then 1 else 0⟩] } := by
  rw [exec_sample_rising_eq h hp, decidePending_some hr hf]
  simp [startBit, hlen, hpkt, bitRecord_eq, pixelRecords_partial hlen]

/-- A rising edge that decides the 24th bit: its pixel follows BIT and ends here, and the next packet starts (R84,
R86, R87). -/
theorem exec_sample_rising_pixel (h : s.Running) (hp : s.prev = some false) (hr : s.riseIdx = some rise)
    (hf : s.fallIdx = some fall) (hpkt : s.pktIdx = some pkt) (hlen : s.acc.length = 23) (idx : Nat) :
    let b := dutyBit (indexDiff fall rise) (indexDiff idx rise)
    exec (.sample idx true) s =
      .next { s with
        prev := some true, riseIdx := some idx, pktIdx := some idx, acc := [],
        etdOut := s.etdOut ++
          [⟨.bit, rise, idx, if b then 1 else 0⟩, ⟨.rgb, pkt, idx, pixelOf (s.acc ++ [b])⟩] } := by
  rw [exec_sample_rising_eq h hp, decidePending_some hr hf]
  simp [startBit, hlen, bitRecord_eq, pixelRecords_eq hpkt]

end

/-! ### The pulse end (R81) -/

theorem decidePending_pulseEnd (idx : Nat) (s : State) :
    (decidePending idx s).fallIdx = s.fallIdx ∧ (decidePending idx s).inReset = s.inReset := by
  cases hr : s.riseIdx with
  | none => rw [decidePending_none (.inl hr)]; exact ⟨rfl, rfl⟩
  | some rise =>
    cases hf : s.fallIdx with
    | none => rw [decidePending_none (.inr hf)]; exact ⟨hf, rfl⟩
    | some fall => rw [decidePending_some hr hf]; exact ⟨hf, rfl⟩

/-- The RESET path keeps `fall_idx` and sets `in_reset` (R17, R83). -/
theorem resetPath_pulseEnd (rise fall idx : Nat) (s : State) :
    (resetPath rise fall idx s).fallIdx = s.fallIdx ∧ (resetPath rise fall idx s).inReset = true := by
  rw [resetPath_eq]; exact ⟨rfl, rfl⟩

/-- Of the edge steps only a falling edge writes `fall_idx` or `in_reset`. -/
theorem edgeSteps_pulseEnd (prev lvl : Bool) (idx : Nat) (s : State) :
    (prev = true ∧ lvl = false ∧ (edgeSteps prev lvl idx s).fallIdx = some idx ∧
      (edgeSteps prev lvl idx s).inReset = false) ∨
    ((edgeSteps prev lvl idx s).fallIdx = s.fallIdx ∧ (edgeSteps prev lvl idx s).inReset = s.inReset) := by
  cases prev <;> cases lvl
  case true.false => exact .inl ⟨rfl, rfl, rfl, rfl⟩
  case false.true => exact .inr (decidePending_pulseEnd idx s)
  all_goals exact .inr ⟨rfl, rfl⟩

/-- A SAMPLE is a falling edge and records it, or it keeps `fall_idx` and does not clear `in_reset`. -/
theorem execSample_pulseEnd {s t : State} {idx : Nat} {lvl : Bool} (h : execSample idx lvl s = .next t) :
    (s.prev = some true ∧ lvl = false ∧ t.fallIdx = some idx ∧ t.inReset = false) ∨
    (t.fallIdx = s.fallIdx ∧ (s.inReset = true → t.inReset = true)) := by
  obtain ⟨-, rfl⟩ | ⟨-, -, rfl⟩ | ⟨-, -, rfl⟩ | ⟨-, -, -, -, -, -, rfl⟩ |
    ⟨prev, rise, fall, -, hp, -, -, rfl⟩ | ⟨prev, -, hp, -, rfl⟩ := execSample_cases h
  case inr.inr.inr.inr.inl =>
    obtain ⟨rfl, hlvl, hfall, hclear⟩ | ⟨hfall, hkeep⟩ := edgeSteps_pulseEnd prev lvl idx (resetPath rise fall idx s)
    · exact .inl ⟨hp, hlvl, hfall, hclear⟩
    · obtain ⟨hfall', hset⟩ := resetPath_pulseEnd rise fall idx s
      exact .inr ⟨hfall.trans hfall', fun _ => hkeep.trans hset⟩
  case inr.inr.inr.inr.inr =>
    obtain ⟨rfl, hlvl, hfall, hclear⟩ | ⟨hfall, hkeep⟩ := edgeSteps_pulseEnd prev lvl idx s
    · exact .inl ⟨hp, hlvl, hfall, hclear⟩
    · exact .inr ⟨hfall, hkeep.trans⟩
  all_goals exact .inr ⟨rfl, id⟩

/-! ### The records of a session -/

theorem newEtd_of_append {s t : State} {rs : List Record} (h : t.etdOut = s.etdOut ++ rs) : newEtd s t = rs := by
  rw [newEtd, h, List.drop_left]

theorem AppendsOnly.forall_newEtd {P : Record → Prop} {s t : State} (h : AppendsOnly P s.etdOut t.etdOut) :
    ∀ r ∈ newEtd s t, P r := by
  obtain ⟨rs, hout, hrs⟩ := h
  rwa [newEtd_of_append hout]

/-- The edge steps emit no RESET: a rising edge emits BIT and RGB, and nothing else emits. -/
theorem edgeSteps_emits_no_reset (prev lvl : Bool) (idx : Nat) (s : State) :
    AppendsOnly (fun r => r.kind ≠ .reset) s.etdOut (edgeSteps prev lvl idx s).etdOut := by
  cases prev <;> cases lvl
  case false.true =>
    rw [edgeSteps_rising]
    cases hr : s.riseIdx with
    | none => rw [decidePending_none (.inl hr)]; exact .refl _ _
    | some rise =>
      cases hf : s.fallIdx with
      | none => rw [decidePending_none (.inr hf)]; exact .refl _ _
      | some fall =>
        rw [decidePending_some hr hf]
        refine ⟨_, rfl, List.forall_mem_cons.mpr ⟨nofun, ?_⟩⟩
        unfold pixelRecords
        split
        · exact List.forall_mem_singleton.mpr nofun
        · exact List.forall_mem_nil _
  all_goals exact .refl _ _

/-- A marker with a pending bit emits RESET, whatever edge the SAMPLE is. -/
theorem resetRecord_mem_newEtd_marker (prev : Bool) (rise fall idx : Nat) (s : State) :
    resetRecord fall idx ∈ newEtd s (edgeSteps prev false idx (resetPath rise fall idx s)) := by
  have hout := edgeSteps_low_etdOut prev idx (resetPath rise fall idx s)
  rw [resetPath_eq rise fall idx s] at hout ⊢
  rw [newEtd_of_append hout]
  simp

end Sys2Proof.Machine
end

section
/-! SUPPORT. A train of pulses, pulse by pulse: the records that the first `k` bits give, and the state at the rising
edge that decides the last of them. -/

namespace Sys2Proof.Machine

theorem execAll_cons {i : Instr} (is : List Instr) {s t : State} (h : exec i s = .next t) :
    execAll (i :: is) s = execAll is t := by
  rw [execAll, h]

theorem execAll_append (is js : List Instr) {s t : State} (h : execAll is s = .next t) :
    execAll (is ++ js) s = execAll js t := by
  induction is generalizing s with
  | nil => cases h; rfl
  | cons i is ih =>
    rw [execAll] at h
    rw [List.cons_append, execAll]
    split at h
    · exact ih h
    · cases h
    · cases h

/-- One more bit of a train: its pulse begins a period after the one before it. -/
theorem pulseTrain_append (period h1 h0 t : Nat) (vs : List Bool) (v : Bool) :
    pulseTrain period h1 h0 t (vs ++ [v]) =
      pulseTrain period h1 h0 t vs ++ wbitOps h1 h0 (t + vs.length * period) v := by
  induction vs generalizing t with
  | nil => simp [pulseTrain]
  | cons w vs ih =>
    have hshift : t + period + vs.length * period = t + (vs.length + 1) * period := by ring
    rw [List.cons_append, pulseTrain, ih, pulseTrain, List.length_cons, List.append_assoc, hshift]

/-! ### The records of a train -/

/-- The records of the first `k` bits of a train, in the order they are emitted: each 24th BIT is followed by the
RGB record it completes. -/
def trainRecords (period start : Nat) (vs : List Bool) (k : Nat) : List Record :=
  (List.range k).flatMap fun j =>
    trainBit period start vs j :: if (j + 1) % 24 = 0 then [trainPixel period start vs (j / 24)] else []

section
variable (period start : Nat) (vs : List Bool)

theorem trainRecords_succ (k : Nat) :
    trainRecords period start vs (k + 1) = trainRecords period start vs k ++
      (trainBit period start vs k :: if (k + 1) % 24 = 0 then [trainPixel period start vs (k / 24)] else []) := by
  simp [trainRecords, List.range_succ]

theorem trainRecords_bits (k : Nat) :
    ofKind .bit (trainRecords period start vs k) = (List.range k).map (trainBit period start vs) := by
  induction k with
  | zero => rfl
  | succ k ih =>
    rw [trainRecords_succ, List.range_succ, List.map_append, ← ih]
    split <;> simp [ofKind, trainBit, trainPixel]

theorem trainRecords_pixels (k : Nat) :
    ofKind .rgb (trainRecords period start vs k) = (List.range (k / 24)).map (trainPixel period start vs) := by
  induction k with
  | zero => rfl
  | succ k ih =>
    rw [trainRecords_succ]
    split
    · next h =>
      have hdiv : (k + 1) / 24 = k / 24 + 1 := by omega
      rw [hdiv, List.range_succ, List.map_append, ← ih]
      simp [ofKind, trainBit, trainPixel]
    · next h =>
      have hdiv : (k + 1) / 24 = k / 24 := by omega
      rw [hdiv, ← ih]
      simp [ofKind, trainBit]

theorem trainRecords_resets (k : Nat) : ofKind .reset (trainRecords period start vs k) = [] := by
  induction k with
  | zero => rfl
  | succ k ih =>
    rw [trainRecords_succ]
    simp only [ofKind] at ih ⊢
    rw [List.filter_append, ih]
    split <;> simp [trainBit, trainPixel]

end

/-! ### The bits of the pixel in progress -/

/-- The bits of the first `k` that belong to no complete pixel. -/
def openPixel (vs : List Bool) (k : Nat) : List Bool := (vs.drop (24 * (k / 24))).take (k % 24)

section
variable {vs : List Bool} {k : Nat}

theorem openPixel_length_eq (h : k ≤ vs.length) : (openPixel vs k).length = k % 24 := by
  rw [openPixel, List.length_take, List.length_drop]
  omega

theorem openPixel_length : openPixel vs vs.length = vs.drop (24 * (vs.length / 24)) := by
  rw [openPixel, List.take_of_length_le]
  rw [List.length_drop]
  omega

/-- The next bit joins the open pixel. -/
theorem openPixel_append (h : k < vs.length) :
    openPixel vs k ++ [vs[k]] = (vs.drop (24 * (k / 24))).take (k % 24 + 1) := by
  have hk : 24 * (k / 24) + k % 24 = k := Nat.div_add_mod k 24
  have hlen : k % 24 < (vs.drop (24 * (k / 24))).length := by rw [List.length_drop]; omega
  have hget : (vs.drop (24 * (k / 24)))[k % 24] = vs[k] := by simp only [List.getElem_drop, hk]
  rw [openPixel, ← hget, List.take_append_getElem]

theorem openPixel_succ (h : k < vs.length) (hmod : (k + 1) % 24 ≠ 0) :
    openPixel vs (k + 1) = openPixel vs k ++ [vs[k]] := by
  have hdiv : (k + 1) / 24 = k / 24 := by omega
  have hrem : (k + 1) % 24 = k % 24 + 1 := by omega
  rw [openPixel_append h, openPixel, hdiv, hrem]

theorem openPixel_complete (h : k < vs.length) (hmod : (k + 1) % 24 = 0) :
    openPixel vs k ++ [vs[k]] = (vs.drop (24 * (k / 24))).take 24 := by
  have hrem : k % 24 + 1 = 24 := by omega
  rw [openPixel_append h, hrem]

theorem trainBit_eq (period start : Nat) (h : k < vs.length) :
    trainBit period start vs k =
      ⟨.bit, start + k * period, start + (k + 1) * period, if vs[k] then 1 else 0⟩ := by
  simp [trainBit, h]

theorem trainRecords_succ_bit (period start : Nat) (h : k < vs.length) (hmod : (k + 1) % 24 ≠ 0) :
    trainRecords period start vs (k + 1) = trainRecords period start vs k ++
      [⟨.bit, start + k * period, start + (k + 1) * period, if vs[k] then 1 else 0⟩] := by
  rw [trainRecords_succ, if_neg hmod, trainBit_eq period start h]

/-- The pixel that a 24th bit completes is made of the open pixel and that bit, and ends with it. -/
theorem trainRecords_succ_pixel (period start : Nat) (h : k < vs.length) (hmod : (k + 1) % 24 = 0) :
    trainRecords period start vs (k + 1) = trainRecords period start vs k ++
      [⟨.bit, start + k * period, start + (k + 1) * period, if vs[k] then 1 else 0⟩,
        ⟨.rgb, start + 24 * (k / 24) * period, start + (k + 1) * period, pixelOf (openPixel vs k ++ [vs[k]])⟩] := by
  have hstop : 24 * (k / 24 + 1) = k + 1 := by omega
  rw [trainRecords_succ, if_pos hmod, trainBit_eq period start h, trainPixel, openPixel_complete h hmod, hstop]

end

/-! ### Running a train -/

/-- The high time of a bit's pulse (R60, `WBIT`). -/
def highTime (h1 h0 : Nat) (v : Bool) : Nat := if v then h1 else h0

/-- A waveform whose bits the duty rule tells apart, too fast for a RESET gap at sample rate `rate`. -/
structure Waveform (rate period h1 h0 : Nat) : Prop where
  pos  : 0 < h0
  zero : 2 * h0 ≤ period
  one  : period < 2 * h1
  fast : (period + h1) * 1000000 ≤ 50 * rate

section
variable {rate period h1 h0 : Nat} (w : Waveform rate period h1 h0) (v : Bool)
include w

theorem Waveform.highTime_pos : 0 < highTime h1 h0 v := by
  obtain ⟨pos, -, one, -⟩ := w
  cases v
  · exact pos
  · exact (by omega : 0 < h1)

theorem Waveform.highTime_le : highTime h1 h0 v ≤ h1 := by
  obtain ⟨-, zero, one, -⟩ := w
  cases v
  · exact (by omega : h0 ≤ h1)
  · exact le_refl h1

theorem Waveform.dutyBit_highTime (rise : Nat) :
    dutyBit (indexDiff (rise + highTime h1 h0 v) rise) (indexDiff (rise + period) rise) = v := by
  obtain ⟨-, zero, one, -⟩ := w
  rw [Bool.eq_iff_iff, dutyBit_iff, indexDiff, indexDiff]
  cases v <;> simp [highTime] <;> omega

end

/-- The state `t` at the rising edge after the first `k` bits of a train that began in state `s`: those bits are
decided, and the bit that rises now is pending. `noGap` keeps the RESET condition false until the line rises again:
the marker has been emitted, or the last falling edge is less than a period old. -/
structure AfterBits (s : State) (period start : Nat) (vs : List Bool) (k : Nat) (t : State) : Prop where
  running : t.Running
  rate    : t.samplerate = s.samplerate
  prev    : t.prev = some true
  rise    : t.riseIdx = some (start + k * period)
  pkt     : t.pktIdx = some (start + 24 * (k / 24) * period)
  acc     : t.acc = openPixel vs k
  noGap   : ∀ fall, t.fallIdx = some fall → t.inReset = true ∨ start + k * period < fall + period
  emitted : t.etdOut = s.etdOut ++ trainRecords period start vs k

/-- The first rising edge of a train on a quiet low line. -/
theorem afterBits_zero {s : State} (h : s.Running) (hp : s.prev = some false) (hacc : s.acc = [])
    (hpkt : s.pktIdx = none) (hr : s.riseIdx = none) (hquiet : s.fallIdx = none ∨ s.inReset = true)
    (period start : Nat) (vs : List Bool) :
    ∃ t, exec (.sample start true) s = .next t ∧ AfterBits s period start vs 0 t := by
  refine ⟨_, exec_sample_rising h hp hr start, h, rfl, rfl, by simp, by simp [hpkt], by simp [hacc, openPixel], ?_,
    by simp [trainRecords]⟩
  intro fall hfall
  exact .inl (hquiet.resolve_left fun hnone => nomatch hnone.symm.trans hfall)

section
variable {s t : State} {period h1 h0 start k : Nat} {vs : List Bool}

/-- Within a pulse of the train no marker is due. -/
theorem AfterBits.noResetDue (a : AfterBits s period start vs k t) (w : Waveform s.samplerate period h1 h0)
    (v : Bool) : t.NoResetDue (start + k * period + highTime h1 h0 v) false := by
  intro fall hd
  have hgap := hd.gap
  have hfast := w.fast
  have hle := w.highTime_le v
  rw [a.rate] at hgap
  obtain hm | hrecent := a.noGap fall hd.fallEdge
  · exact absurd hm (by simp [hd.notYet])
  · push_cast at hgap
    zify at hfast hle hrecent
    linarith

/-- The rising edge after the pulse of bit `k` has fallen decides that bit, and with a 24th one its pixel. -/
theorem AfterBits.succ (a : AfterBits s period start vs k t) (w : Waveform s.samplerate period h1 h0)
    (hk : k < vs.length) :
    ∃ u, exec (.sample (start + (k + 1) * period) true)
        (edgeSteps true false (start + k * period + highTime h1 h0 vs[k]) t) = .next u ∧
      AfterBits s period start vs (k + 1) u := by
  have hnext : start + (k + 1) * period = start + k * period + period := by ring
  have hduty := w.dutyBit_highTime vs[k] (start + k * period)
  have hlen : t.acc.length = k % 24 := a.acc ▸ openPixel_length_eq hk.le
  have hnoGap (fall : Nat) (h : some (start + k * period + highTime h1 h0 vs[k]) = some fall) :
      false = true ∨ start + (k + 1) * period < fall + period := by
    have hpos := w.highTime_pos vs[k]
    have hfall := Option.some.inj h
    exact .inr (by omega)
  rw [← hnext] at hduty
  by_cases hmod : (k + 1) % 24 = 0
  case pos =>
    have hexec := exec_sample_rising_pixel
      (s := edgeSteps true false (start + k * period + highTime h1 h0 vs[k]) t)
      a.running rfl a.rise rfl a.pkt (hlen.trans (by omega)) (start + (k + 1) * period)
    have hpacket : 24 * ((k + 1) / 24) = k + 1 := by omega
    rw [hduty] at hexec
    refine ⟨_, hexec, a.running, a.rate, rfl, rfl, by rw [hpacket], by simp [openPixel, hmod], hnoGap, ?_⟩
    rw [trainRecords_succ_pixel period start hk hmod, ← a.acc, ← List.append_assoc, ← a.emitted]
    rfl
  case neg =>
    have hexec := exec_sample_rising_bit
      (s := edgeSteps true false (start + k * period + highTime h1 h0 vs[k]) t)
      a.running rfl a.rise rfl a.pkt (hlen.trans_ne (by omega)) (start + (k + 1) * period)
    have hpacket : (k + 1) / 24 = k / 24 := by omega
    rw [hduty] at hexec
    refine ⟨_, hexec, a.running, a.rate, rfl, rfl, by rw [hpacket]; exact a.pkt, ?_, hnoGap, ?_⟩
    · rw [openPixel_succ hk hmod, ← a.acc]; rfl
    · rw [trainRecords_succ_bit period start hk hmod, ← List.append_assoc, ← a.emitted]
      rfl

/-- The first `k` pulses of a train and one more rising edge decide its first `k` bits. -/
theorem execAll_pulseTrain_take (w : Waveform s.samplerate period h1 h0)
    (hfirst : ∃ t, exec (.sample start true) s = .next t ∧ AfterBits s period start vs 0 t) (hk : k ≤ vs.length) :
    ∃ t, execAll (pulseTrain period h1 h0 start (vs.take k) ++ [.sample (start + k * period) true]) s = .next t ∧
      AfterBits s period start vs k t := by
  induction k with
  | zero =>
    obtain ⟨t, hexec, ht⟩ := hfirst
    exact ⟨t, by simp [pulseTrain, execAll, hexec], ht⟩
  | succ k ih =>
    obtain ⟨t, hrun, ht⟩ := ih (by omega)
    have hfall := exec_sample_noMarker ht.running ht.prev (ht.noResetDue w vs[k])
    obtain ⟨u, hrise, hu⟩ := ht.succ w hk
    have hsplit : pulseTrain period h1 h0 start (vs.take (k + 1)) ++ [.sample (start + (k + 1) * period) true] =
        (pulseTrain period h1 h0 start (vs.take k) ++ [.sample (start + k * period) true]) ++
          [.sample (start + k * period + highTime h1 h0 vs[k]) false, .sample (start + (k + 1) * period) true] := by
      rw [← List.take_append_getElem hk, pulseTrain_append, List.length_take_of_le (by omega)]
      simp [wbitOps, pulseOps, highTime]
    exact ⟨u, by rw [hsplit, execAll_append _ _ hrun, execAll_cons _ hfall, execAll_cons _ hrise]; rfl, hu⟩

end

end Sys2Proof.Machine
end

section
/-! PROOF. The statement about trains of pulses. -/

namespace Sys2Proof.Machine

/-- Settles O46: by induction on the pulses, each rising edge after the first decides one bit, and the records so far
are those of the bits so far. -/
theorem pulseTrainDecodesToItsBits : Obligations.PulseTrainDecodesToItsBits := by
  intro s period h1 h0 start vs hrun _ hp hacc hpkt hr hquiet hpos _ _ hzero hone hfast
  have w : Waveform s.samplerate period h1 h0 := ⟨hpos, hzero, hone, hfast⟩
  obtain ⟨t, hexec, ht⟩ := execAll_pulseTrain_take w
    (afterBits_zero hrun hp hacc hpkt hr hquiet period start vs) (le_refl vs.length)
  rw [List.take_length] at hexec
  refine ⟨t, hexec, ?_⟩
  rw [newEtd_of_append ht.emitted]
  exact ⟨trainRecords_bits period start vs vs.length, trainRecords_pixels period start vs vs.length,
    trainRecords_resets period start vs vs.length, ht.acc.trans openPixel_length, ht.running.1⟩

end Sys2Proof.Machine
end

section
/-! PROOF. The statements about a SAMPLE: its edges, its RESET marker, its faults, and the values it decides. -/

namespace Sys2Proof.Machine

/-- Settles O16: a SAMPLE writes the pulse end at a falling edge only, SETRATE and the Byte-Assembler never. -/
theorem fallingEdgeRecordsPulseEnd : Obligations.FallingEdgeRecordsPulseEnd := by
  refine ⟨fun s idx _ hrun hp hd => exec_sample_falling hd hrun hp, ?_⟩
  intro i s t _ h hinit hchange
  have hwrites : ¬ (t.fallIdx = s.fallIdx ∧ (s.inReset = true → t.inReset = true)) := by
    rintro ⟨hfall, hkeep⟩
    obtain hne | ⟨hset, hclear⟩ := hchange
    · exact hne hfall
    · exact absurd (hkeep hset) (by simp [hclear])
  cases i with
  | init => exact absurd rfl hinit
  | setrate rate => cases h; exact absurd ⟨rfl, id⟩ hwrites
  | sample idx lvl =>
    obtain ⟨hp, rfl, hfall, hclear⟩ | hsame := execSample_pulseEnd h
    · exact ⟨idx, rfl, hp, hfall, hclear⟩
    · exact absurd hsame hwrites
  | bainit =>
    obtain ⟨hsame, -⟩ := exec_ba_frame rfl h
    exact absurd ⟨hsame.fallIdx, hsame.inReset.trans⟩ hwrites
  | txn =>
    obtain ⟨hsame, -⟩ := exec_ba_frame rfl h
    exact absurd ⟨hsame.fallIdx, hsame.inReset.trans⟩ hwrites

/-- Settles O17: the two outcomes of a decided bit, the rising edge that decides none, and the bounds on `duty` from
the order of the indices. -/
theorem risingEdgeDecidesPendingBit : Obligations.RisingEdgeDecidesPendingBit := by
  intro s idx hprec hrun hp
  refine ⟨fun rise fall pkt hr hf hpkt => ?_, fun hnone => ?_⟩
  · have hduty : dutyBit (indexDiff fall rise) (indexDiff idx rise) =
        decide (2 * ((fall : Int) - rise) > (idx : Int) - rise) := dutyBit_eq_decide _ _
    refine ⟨fun hlen => ?_, fun hlen => ?_, fun hinv => ?_⟩
    · rw [← hduty]; exact exec_sample_rising_bit hrun hp hr hf hpkt hlen idx
    · rw [← hduty]; exact exec_sample_rising_pixel hrun hp hr hf hpkt hlen idx
    · obtain ⟨f, hf', hlt⟩ := hinv.order.fallenBit rise hr hp
      obtain rfl : f = fall := Option.some.inj (hf'.symm.trans hf)
      have hidx := hprec.fall f hf
      omega
  · rw [exec_sample_rising_eq hrun hp, decidePending_none hnone]
    rfl

/-- Settles O18, path by path: only the two marker paths emit RESET or latch NOBITSTART. -/
theorem resetMarkerExactlyWhenDue : Obligations.ResetMarkerExactlyWhenDue := by
  intro s idx lvl _ hrun hprev
  obtain ⟨t, h⟩ := execSample_accepts idx lvl s
  refine ⟨t, h, ?_⟩
  obtain ⟨hf, -⟩ | ⟨-, hrate, -⟩ | ⟨-, hp, -⟩ | ⟨prev, fall, -, -, hd, -, rfl⟩ |
    ⟨prev, rise, fall, -, -, hd, -, rfl⟩ | ⟨prev, -, -, hd, rfl⟩ := execSample_cases h
  · exact absurd hrun.1 hf
  · exact absurd hrate hrun.2
  · exact absurd hp hprev
  · exact ⟨fun _ => ⟨fall, hd⟩, fun _ => .inr rfl⟩
  · obtain rfl := hd.low
    exact ⟨fun _ => ⟨fall, hd⟩,
      fun _ => .inl ⟨resetRecord fall idx, resetRecord_mem_newEtd_marker prev rise fall idx s, rfl⟩⟩
  · refine ⟨?_, fun ⟨fall, hdue⟩ => absurd hdue (hd fall)⟩
    rintro (⟨r, hr, hkind⟩ | hfault)
    · exact absurd hkind ((edgeSteps_emits_no_reset prev lvl idx s).forall_newEtd r hr)
    · rw [edgeSteps_fault, hrun.1] at hfault
      exact absurd hfault (by decide)

/-- Settles O19: the whole RESET path, then the edge step of a line that was low or high. -/
theorem resetMarkerFinalizesPendingBit : Obligations.ResetMarkerFinalizesPendingBit := by
  intro s idx rise fall pkt prev lvl _ hrun hp hd hr hpkt
  obtain rfl := hd.low
  have hbit : highTimeBit (indexDiff fall rise) s.samplerate =
      decide (((fall : Int) - rise) * 1000000000 ≥ 625 * (s.samplerate : Int)) := highTimeBit_eq_decide _ _
  rw [← hbit, exec_sample_marker hrun hp hd hr, resetPath_eq, pixelRecords_eq hpkt, bitRecord_eq]
  cases prev
  · simp [edgeSteps_level, hd.fallEdge, resetRecord]
  · simp [edgeSteps_falling, endPulse, resetRecord]

/-- Settles O25, from pixel assembly on 24 bits and on any other number. -/
theorem pixelAssemblyReordersGrbToRgb : Obligations.PixelAssemblyReordersGrbToRgb := by
  refine ⟨fun s pkt boundary hpkt => ⟨fun hlen => ?_, pixelAssembly_partial⟩, fun bits _ hsum => ?_⟩
  · rw [pixelAssembly_full hlen, hpkt, readIndex_some, reorderGrb_wireWord hlen, rgbRecord]
  · rw [pixelOf, hsum]
    decide

/-- Settles O7: the latched fault is raised again. -/
theorem abortedSampleRaisesLatchedFault : Obligations.AbortedSampleRaisesLatchedFault :=
  fun s idx lvl _ h => ⟨execSample_aborted h idx lvl, (faultOut_iff s).mpr h, rfl⟩

/-- Settles O8: the configuration check comes before everything but the gate. -/
theorem sampleWithoutRateRaisesCfg : Obligations.SampleWithoutRateRaisesCfg :=
  fun _ idx lvl _ hf hr => execSample_withoutRate hf hr idx lvl

/-- Settles O9: a marker that is due finds no bit start. -/
theorem resetWithoutBitStartRaisesNoBitStart : Obligations.ResetWithoutBitStartRaisesNoBitStart :=
  fun _ _ _ _ _ _ hrun hp hd hr => execSample_withoutBitStart hrun hp hd hr

/-- Settles O14: without a previous level there is no step past the first. -/
theorem firstSampleRecordsLevelOnly : Obligations.FirstSampleRecordsLevelOnly :=
  fun _ idx lvl _ hrun hp => execSample_first hrun hp idx lvl

/-- Settles O15: the edge steps of an unchanged level write that level back. -/
theorem sampleWithoutEdgeChangesNothing : Obligations.SampleWithoutEdgeChangesNothing := by
  intro s idx lvl _ hrun hp hd
  rw [exec_sample_noMarker hrun hp hd, edgeSteps_level, State.prev_update_self hp]

/-- Settles O27: 50 µs are a twenty-thousandth of a second and 625 ns a 1600000th, so the thresholds are the quotients
of the rate, the first above the floor and the second at the ceiling. -/
theorem timeThresholdsInSamples : Obligations.TimeThresholdsInSamples := by
  refine ⟨fun gap rate => ?_, fun dur rate => ?_, by decide, fun dur rate hrate hdur => ?_⟩
  · rw [gapExceeded_iff]; omega
  · rw [highTimeBit_iff]; omega
  · rw [highTimeBit_iff]; omega

/-- Settles O28: 24 exceeds 20, and 12 of 20 million samples last 600 ns. -/
theorem theTwoClassifiersDisagree : Obligations.TheTwoClassifiersDisagree := by
  refine ⟨(dutyBit_iff 12 20).mpr (by decide), ?_⟩
  rw [Bool.eq_false_iff, ne_eq, highTimeBit_iff]
  decide

end Sys2Proof.Machine
end

section
/-! PROOF. The statements about the Byte-Assembler. -/

namespace Sys2Proof.Machine

/-- Settles O31, from the decoder at code 4 and the two writes of BAINIT, which a second BAINIT finds done. -/
theorem bainitClearsTheBaOnly : Obligations.BainitClearsTheBaOnly :=
  ⟨fun _ => decode_bainit, fun _ h => ⟨exec_bainit h, exec_bainit h⟩⟩

/-- Settles O33, from a DATA transaction on a buffer of no, some or exactly two bytes. -/
theorem dataTransactionFillsGroup : Obligations.DataTransactionFillsGroup := by
  intro s start stop byte byte2 h
  have hexec : exec (.txn start stop true byte byte2) s =
      .next (closeGroup stop (pushByte byte (openGroup start s))) :=
    exec_txn_data (x := ⟨start, stop, true, byte, byte2⟩) rfl h
  rw [hexec, group_eq]
  refine ⟨fun hempty => ?opened, fun hne htwo => ?appended, fun x y grp hbuf hgrp => ?completed⟩
  case opened => rw [hempty]
  case appended =>
    split
    next hbuf => exact absurd hbuf hne
    next hbuf => exact absurd (congrArg List.length hbuf) htwo
    next => rfl
  case completed => simp only [hbuf, hgrp, readIndex_some, baWord_eq, rgbRecord]

end Sys2Proof.Machine
end

section
/-! SUPPORT. Which operations and which steps can change FAULT (R120, R127, R129). -/

namespace Sys2Proof.Machine

/-! ### A change of FAULT -/

/-- A SAMPLE that changes FAULT found it clear, and does nothing but latch CFG or NOBITSTART (R127). -/
theorem execSample_changes_fault {s t : State} {idx : Nat} {lvl : Bool} (h : execSample idx lvl s = .next t)
    (hne : t.fault ≠ s.fault) :
    s.fault = 0#2 ∧ (t.fault = faultCfg ∨ t.fault = faultNoBitStart) ∧ t = latchFault t.fault s := by
  refine ⟨?clear, (execSample_fault h).resolve_left hne, ?latched⟩
  case clear =>
    by_contra hs
    cases (execSample_aborted hs idx lvl).symm.trans h
    exact hne rfl
  case latched =>
    obtain ⟨code, rfl⟩ | hframe := execSample_latch_or_frame h
    · rfl
    · exact absurd hframe.fault hne

/-- An operation that changes FAULT is INIT or a SAMPLE in a state with no fault latched. -/
theorem exec_changes_fault {i : Instr} {s t : State} (h : exec i s = .next t) (hne : t.fault ≠ s.fault) :
    (i = .init ∧ t = initEtd s) ∨
    ((∃ idx lvl, i = .sample idx lvl) ∧
      s.fault = 0#2 ∧ (t.fault = faultCfg ∨ t.fault = faultNoBitStart) ∧ t = latchFault t.fault s) := by
  cases i with
  | init => cases h; exact .inl ⟨rfl, rfl⟩
  | setrate rate => cases h; exact absurd rfl hne
  | sample idx lvl => exact .inr ⟨⟨idx, lvl, rfl⟩, execSample_changes_fault h hne⟩
  | bainit => exact absurd (exec_ba_frame rfl h).1.fault hne
  | txn => exact absurd (exec_ba_frame rfl h).1.fault hne

/-! ### A step in the aborted state -/

theorem beginsSession_cmd_iff (b : Bundle) : (HostItem.cmd b).beginsSession = true ↔ b.op = 0#3 := by
  simp [HostItem.beginsSession]

theorem step_powerOn {s : State} {rest : List HostItem} (hi : s.input = .powerOn :: rest) :
    step s = .next (powerOnReset (takePowerOn rest s)) := by
  simp [step, fetch, hi]

/-- A step that takes INIT or a power-on reset leaves every ETD register at its reset value (R66, R140). -/
theorem step_beginsSession_etdAtReset {s t : State} {x : HostItem} {rest : List HostItem}
    (hi : s.input = x :: rest) (hx : x.beginsSession = true) (h : step s = .next t) : t.EtdAtReset := by
  cases x with
  | powerOn =>
    rw [step_powerOn hi] at h
    cases h
    exact powerOnReset_etdAtReset _
  | cmd b =>
    have hd : decode b = .ok .init := decode_init ((beginsSession_cmd_iff b).mp hx)
    rw [step_inOrder hi hd rfl] at h
    cases h
    exact initEtd_etdAtReset _

/-- A latched fault is changed by a step that begins a session only: a SAMPLE changes FAULT where it is clear. -/
theorem step_changes_latched_fault {s t : State} (hs : s.fault ≠ 0#2) (h : step s = .next t)
    (hne : t.fault ≠ s.fault) : ∃ x rest, s.input = x :: rest ∧ x.beginsSession = true := by
  obtain ⟨-, rfl⟩ | ⟨rest, hi, -⟩ | ⟨b, rest, i, hi, hd, -, hexec⟩ := step_cases h
  · exact absurd rfl hne
  · exact ⟨.powerOn, rest, hi, rfl⟩
  · obtain ⟨rfl, -⟩ | ⟨-, hclear, -⟩ := exec_changes_fault (s := takeOp i rest s) hexec hne
    · exact ⟨.cmd b, rest, hi, (beginsSession_cmd_iff b).mpr (decode_wellFormed_opcode hd).2.symm⟩
    · exact absurd hclear hs

end Sys2Proof.Machine
end

section
/-! PROOF. The statements about faults: they are precise, and the two ways out of the aborted state. -/

namespace Sys2Proof.Machine

/-- Settles O11: an operation that leaves FAULT set either found it set, and then a SAMPLE changes nothing, or is a
SAMPLE that does nothing but latch its code. -/
theorem faultsArePrecise : Obligations.FaultsArePrecise := by
  intro i s t _ h ht
  by_cases hsame : t.fault = s.fault
  · have hs : s.fault ≠ 0#2 := hsame ▸ ht
    refine ⟨fun hclear => absurd hclear hs, ?_⟩
    rintro ⟨idx, lvl, rfl⟩
    cases (execSample_aborted hs idx lvl).symm.trans h
    rfl
  · obtain ⟨-, rfl⟩ | ⟨hsample, -, hcode, hlatch⟩ := exec_changes_fault h hsame
    · exact absurd rfl ht
    · exact ⟨fun _ => ⟨hsample, hcode⟩, fun _ => hlatch⟩

/-- Settles O12: what changes a latched fault begins a session, and what begins a session resets the ETD, FAULT
included. -/
theorem onlyInitializationLeavesAbortedState : Obligations.OnlyInitializationLeavesAbortedState := by
  intro s t h hs
  refine ⟨⟨step_changes_latched_fault hs h, ?cleared⟩, fun hne => ?reset⟩
  case cleared =>
    rintro ⟨x, rest, hi, hx⟩
    rw [(step_beginsSession_etdAtReset hi hx h).fault]
    exact hs.symm
  case reset =>
    obtain ⟨x, rest, hi, hx⟩ := step_changes_latched_fault hs h hne
    exact step_beginsSession_etdAtReset hi hx h

end Sys2Proof.Machine
end

section
/-! SUPPORT. Two runs of one operation from the same ETD registers, after different records. The one thing that could
make them differ is the free value of a packet start that is missing, which counts the records before it; a pending bit
always has its packet start (R23 invariant 2), so no record shows it. -/

namespace Sys2Proof.Machine

/-! ### A pending bit has its packet start -/

/-- R23 invariant 2. -/
def State.PacketStarted (s : State) : Prop := s.riseIdx.isSome → s.pktIdx.isSome

theorem initEtd_packetStarted (s : State) : (initEtd s).PacketStarted := nofun

theorem resetPath_packetStarted (rise fall idx : Nat) (s : State) : (resetPath rise fall idx s).PacketStarted := nofun

theorem State.PacketStarted.of_sameEtd {s t : State} (h : s.PacketStarted) (hetd : SameEtd s t) :
    t.PacketStarted := by
  rw [State.PacketStarted, hetd.riseIdx, hetd.pktIdx]
  exact h

/-- A rising edge starts a packet where none is pending, and no other edge writes either index. -/
theorem edgeSteps_packetStarted {s : State} (h : s.PacketStarted) (prev lvl : Bool) (idx : Nat) :
    (edgeSteps prev lvl idx s).PacketStarted := by
  cases prev <;> cases lvl
  case false.true => exact fun _ => rfl
  all_goals exact h

theorem execSample_packetStarted {s t : State} {idx : Nat} {lvl : Bool} (hs : s.PacketStarted)
    (h : execSample idx lvl s = .next t) : t.PacketStarted := by
  obtain ⟨-, rfl⟩ | ⟨-, -, rfl⟩ | ⟨-, -, rfl⟩ | ⟨-, -, -, -, -, -, rfl⟩ |
    ⟨prev, rise, fall, -, -, -, -, rfl⟩ | ⟨prev, -, -, -, rfl⟩ := execSample_cases h
  case inr.inr.inr.inr.inl => exact edgeSteps_packetStarted (resetPath_packetStarted rise fall idx s) prev lvl idx
  case inr.inr.inr.inr.inr => exact edgeSteps_packetStarted hs prev lvl idx
  all_goals exact hs

theorem exec_packetStarted {i : Instr} {s t : State} (hs : s.PacketStarted) (h : exec i s = .next t) :
    t.PacketStarted := by
  cases i with
  | init => cases h; exact initEtd_packetStarted s
  | setrate rate => cases h; exact hs
  | sample idx lvl => exact execSample_packetStarted hs h
  | bainit => exact hs.of_sameEtd (exec_ba_frame rfl h).1
  | txn => exact hs.of_sameEtd (exec_ba_frame rfl h).1

/-! ### Records emitted earlier -/

/-- The state `s` with the records `out` in the ETD's stream before its own. -/
def recordedAfter (out : List Record) (s : State) : State := { s with etdOut := out ++ s.etdOut }

@[simp] theorem recordedAfter_etdOut (out : List Record) (s : State) :
    (recordedAfter out s).etdOut = out ++ s.etdOut := rfl

/-- The state `s` with an empty ETD stream. -/
def withoutRecords (s : State) : State := { s with etdOut := [] }

theorem recordedAfter_withoutRecords (s : State) : recordedAfter s.etdOut (withoutRecords s) = s := by
  rw [recordedAfter, withoutRecords, List.append_nil]

/-- A packet start that is there is read, whatever the count of records before. -/
theorem pixelRecords_recordedAfter {s : State} (h : s.pktIdx.isSome) (out : List Record) (b : Bool)
    (boundary pos pos' : Nat) :
    pixelRecords b boundary pos (recordedAfter out s) = pixelRecords b boundary pos' s := by
  obtain ⟨pkt, hpkt⟩ := Option.isSome_iff_exists.mp h
  rw [pixelRecords_eq hpkt, pixelRecords_eq (s := recordedAfter out s) hpkt]
  rfl

theorem resetPath_recordedAfter {s : State} (h : s.pktIdx.isSome) (out : List Record) (rise fall idx : Nat) :
    resetPath rise fall idx (recordedAfter out s) = recordedAfter out (resetPath rise fall idx s) := by
  rw [resetPath_eq, resetPath_eq, pixelRecords_recordedAfter h out _ _ _ s.etdOut.length]
  simp [recordedAfter]

theorem decidePending_recordedAfter {s : State} (h : s.PacketStarted) (out : List Record) (idx : Nat) :
    decidePending idx (recordedAfter out s) = recordedAfter out (decidePending idx s) := by
  cases hr : s.riseIdx with
  | none => rw [decidePending_none (.inl hr), decidePending_none (s := recordedAfter out s) (.inl hr)]
  | some rise =>
    have hpkt : s.pktIdx.isSome := h (by simp [hr])
    cases hf : s.fallIdx with
    | none => rw [decidePending_none (.inr hf), decidePending_none (s := recordedAfter out s) (.inr hf)]
    | some fall =>
      have hpixel (b : Bool) (pos : Nat) : pixelRecords b idx pos (recordedAfter out s) =
          pixelRecords b idx (s.etdOut.length + 1) s := pixelRecords_recordedAfter hpkt out b idx pos _
      rw [decidePending_some hr hf, decidePending_some (s := recordedAfter out s) hr hf]
      simp only [hpixel, recordedAfter_etdOut, List.append_assoc]
      rfl

theorem edgeSteps_recordedAfter {s : State} (h : s.PacketStarted) (out : List Record) (prev lvl : Bool) (idx : Nat) :
    edgeSteps prev lvl idx (recordedAfter out s) = recordedAfter out (edgeSteps prev lvl idx s) := by
  cases prev <;> cases lvl
  case false.true => rw [edgeSteps_rising, edgeSteps_rising, decidePending_recordedAfter h]; rfl
  all_goals rfl

theorem resetDue_recordedAfter {s : State} {idx fall : Nat} {lvl : Bool} (out : List Record) :
    (recordedAfter out s).ResetDue idx lvl fall ↔ s.ResetDue idx lvl fall :=
  ⟨fun ⟨low, notYet, fallEdge, gap⟩ => ⟨low, notYet, fallEdge, gap⟩,
    fun ⟨low, notYet, fallEdge, gap⟩ => ⟨low, notYet, fallEdge, gap⟩⟩

theorem execSample_recordedAfter {s t : State} {idx : Nat} {lvl : Bool} (hs : s.PacketStarted)
    (h : execSample idx lvl s = .next t) (out : List Record) :
    execSample idx lvl (recordedAfter out s) = .next (recordedAfter out t) := by
  obtain ⟨hf, rfl⟩ | ⟨hf, hr, rfl⟩ | ⟨hrun, hp, rfl⟩ | ⟨prev, fall, hrun, hp, hd, hr, rfl⟩ |
    ⟨prev, rise, fall, hrun, hp, hd, hr, rfl⟩ | ⟨prev, hrun, hp, hd, rfl⟩ := execSample_cases h
  · exact execSample_aborted (s := recordedAfter out t) hf idx lvl
  · exact execSample_withoutRate (s := recordedAfter out s) hf hr idx lvl
  · exact execSample_first (s := recordedAfter out s) hrun hp idx lvl
  · exact execSample_withoutBitStart hrun hp ((resetDue_recordedAfter out).mpr hd) hr
  · have hpkt : s.pktIdx.isSome := hs (by simp [hr])
    rw [execSample_running (s := recordedAfter out s) hrun hp,
      sampleSteps_marker ((resetDue_recordedAfter out).mpr hd) hr, resetPath_recordedAfter hpkt,
      edgeSteps_recordedAfter (resetPath_packetStarted rise fall idx s)]
  · rw [execSample_running (s := recordedAfter out s) hrun hp,
      sampleSteps_noMarker fun fall hd' => hd fall ((resetDue_recordedAfter out).mp hd'), edgeSteps_recordedAfter hs]

theorem exec_etd_recordedAfter {i : Instr} {s t : State} (hu : i.unit = .etd) (hs : s.PacketStarted)
    (h : exec i s = .next t) (out : List Record) :
    exec i (recordedAfter out s) = .next (recordedAfter out t) := by
  cases i with
  | init => cases h; rfl
  | setrate rate => cases h; rfl
  | sample idx lvl => exact execSample_recordedAfter hs h out
  | bainit => cases hu
  | txn => cases hu

/-! ### Two runs -/

theorem SameEtd.symm {s t : State} (h : SameEtd s t) : SameEtd t s :=
  ⟨h.samplerate.symm, h.fault.symm, h.prev.symm, h.acc.symm, h.pktIdx.symm, h.riseIdx.symm, h.fallIdx.symm,
    h.inReset.symm⟩

theorem SameEtd.trans {s t u : State} (h : SameEtd s t) (k : SameEtd t u) : SameEtd s u :=
  ⟨k.samplerate.trans h.samplerate, k.fault.trans h.fault, k.prev.trans h.prev, k.acc.trans h.acc,
    k.pktIdx.trans h.pktIdx, k.riseIdx.trans h.riseIdx, k.fallIdx.trans h.fallIdx, k.inReset.trans h.inReset⟩

/-- From the states `s` and `s'` the ETD went to `t` and `t'`: the same registers, and the same records emitted. -/
structure SameProgress (s s' t t' : State) : Prop where
  etd     : SameEtd t t'
  records : ∃ rs, t.etdOut = s.etdOut ++ rs ∧ t'.etdOut = s'.etdOut ++ rs

theorem SameProgress.refl {s s' : State} (h : SameEtd s s') : SameProgress s s' s s' := ⟨h, [], by simp⟩

theorem SameProgress.trans {s s' t t' u u' : State} (h : SameProgress s s' t t') (k : SameProgress t t' u u') :
    SameProgress s s' u u' := by
  obtain ⟨-, rs, ht, ht'⟩ := h
  obtain ⟨hetd, qs, hu, hu'⟩ := k
  exact ⟨hetd, rs ++ qs, by rw [hu, ht, List.append_assoc], by rw [hu', ht', List.append_assoc]⟩

theorem SameProgress.newEtd_eq {s s' t t' : State} (h : SameProgress s s' t t') : newEtd s t = newEtd s' t' := by
  obtain ⟨-, rs, ht, ht'⟩ := h
  rw [newEtd_of_append ht, newEtd_of_append ht']

/-- The registers and the records of the ETD pass through an operation of the BA on both sides. -/
theorem exec_ba_sameProgress {i : Instr} {s s' t t' : State} (hu : i.unit = .ba) (hetd : SameEtd s s')
    (h : exec i s = .next t) (h' : exec i s' = .next t') : SameProgress s s' t t' := by
  obtain ⟨hk, hout, -⟩ := exec_ba_frame hu h
  obtain ⟨hk', hout', -⟩ := exec_ba_frame hu h'
  exact ⟨hk.symm.trans (hetd.trans hk'), [], by simpa using hout, by simpa using hout'⟩

/-- Both runs are the run from an empty ETD stream, put after the records each side had. -/
theorem exec_etd_sameProgress {i : Instr} {s s' t t' : State} (hu : i.unit = .etd) (hs : s.PacketStarted)
    (hetd : SameEtd s s') (h : exec i s = .next t) (h' : exec i s' = .next t') : SameProgress s s' t t' := by
  obtain ⟨u, hrun⟩ := exec_etd_accepts hu (withoutRecords s)
  have hreplay (out : List Record) : exec i (recordedAfter out (withoutRecords s)) = .next (recordedAfter out u) :=
    exec_etd_recordedAfter hu (s := withoutRecords s) hs hrun out
  have hrun_s : exec i s = .next (recordedAfter s.etdOut u) := by
    simpa only [recordedAfter_withoutRecords] using hreplay s.etdOut
  have hs' : assemble (recordedAfter s'.etdOut (withoutRecords s)) s' s' = s' :=
    assemble_of_sameEtd { hetd with } (List.append_nil s'.etdOut).symm
  have hrun_s' : exec i s' = .next (assemble (recordedAfter s'.etdOut u) s' s') := by
    simpa only [hs'] using exec_etd_assemble hu (hreplay s'.etdOut) s' s'
  cases hrun_s.symm.trans h
  cases hrun_s'.symm.trans h'
  exact ⟨⟨rfl, rfl, rfl, rfl, rfl, rfl, rfl, rfl⟩, u.etdOut, rfl, rfl⟩

theorem exec_sameProgress {i : Instr} {s s' t t' : State} (hs : s.PacketStarted) (hetd : SameEtd s s')
    (h : exec i s = .next t) (h' : exec i s' = .next t') : SameProgress s s' t t' := by
  cases hu : i.unit with
  | etd => exact exec_etd_sameProgress hu hs hetd h h'
  | ba => exact exec_ba_sameProgress hu hetd h h'

theorem execAll_cons_next {i : Instr} {is : List Instr} {s t : State} (h : execAll (i :: is) s = .next t) :
    ∃ u, exec i s = .next u ∧ execAll is u = .next t := by
  rw [execAll] at h
  split at h
  · next u hexec => exact ⟨u, hexec, h⟩
  · cases h
  · cases h

theorem execAll_sameProgress {is : List Instr} {s s' t t' : State} (hs : s.PacketStarted) (hetd : SameEtd s s')
    (h : execAll is s = .next t) (h' : execAll is s' = .next t') : SameProgress s s' t t' := by
  induction is generalizing s s' with
  | nil => cases h; cases h'; exact .refl hetd
  | cons i is ih =>
    obtain ⟨u, hexec, h⟩ := execAll_cons_next h
    obtain ⟨u', hexec', h'⟩ := execAll_cons_next h'
    have hprogress : SameProgress s s' u u' := exec_sameProgress hs hetd hexec hexec'
    exact hprogress.trans (ih (exec_packetStarted hs hexec) hprogress.etd h h')

end Sys2Proof.Machine
end

section
/-! PROOF. The statements about reset: sessions are independent, and power-on reset is the two initialisations. -/

namespace Sys2Proof.Machine

/-- Settles O6: INIT emits nothing and leaves the same ETD registers on both sides, no bit pending, and from there the
two runs make the same progress. The order of the list is not needed. -/
theorem sessionsAreIndependent : Obligations.SessionsAreIndependent := by
  intro ops s₁ s₂ t₁ t₂ _ h₁ h₂
  have hinit : SameEtd (initEtd s₁) (initEtd s₂) := ⟨rfl, rfl, rfl, rfl, rfl, rfl, rfl, rfl⟩
  have hprogress : SameProgress (initEtd s₁) (initEtd s₂) t₁ t₂ :=
    execAll_sameProgress (initEtd_packetStarted s₁) hinit h₁ h₂
  exact ⟨hprogress.etd, hprogress.newEtd_eq⟩

/-- Settles O5: INIT keeps HAS_BA, so BAINIT runs after it; the step takes the item and runs the reset. -/
theorem powerOnResetIsInitThenBainit : Obligations.PowerOnResetIsInitThenBainit := by
  refine ⟨fun s hb => ?_, fun s rest hi => step_powerOn hi⟩
  have hb : (initEtd s).hasBA = true := hb
  calc execAll [.init, .bainit] s
    _ = execAll [.bainit] (initEtd s) := execAll_cons _ rfl
    _ = .next (powerOnReset s) := execAll_cons [] (exec_bainit hb)

end Sys2Proof.Machine
end

section
/-! SUPPORT. Two states alike in the registers and the stream of one unit, and runs of that unit's operations from
them. -/

namespace Sys2Proof.Machine

/-- The two states agree on the ETD, its stream included. -/
structure AlikeEtd (s t : State) : Prop where
  etd    : SameEtd s t
  etdOut : t.etdOut = s.etdOut

/-- The two states agree on the BA, its stream and HAS_BA included. -/
structure AlikeBa (s t : State) : Prop where
  ba    : SameBa s t
  hasBA : t.hasBA = s.hasBA
  baOut : t.baOut = s.baOut

theorem AlikeEtd.refl (s : State) : AlikeEtd s s := ⟨⟨rfl, rfl, rfl, rfl, rfl, rfl, rfl, rfl⟩, rfl⟩

theorem AlikeBa.refl (s : State) : AlikeBa s s := ⟨⟨rfl, rfl⟩, rfl, rfl⟩

/-- What an operation of the BA leaves behind is still alike in the ETD. -/
theorem AlikeEtd.after_ba {i : Instr} {s s' t : State} (h : AlikeEtd s s') (hu : i.unit = .ba)
    (hexec : exec i s = .next t) : AlikeEtd t s' := by
  obtain ⟨hetd, hout, -⟩ := exec_ba_frame hu hexec
  exact ⟨hetd.symm.trans h.etd, h.etdOut.trans hout.symm⟩

/-- What an operation of the ETD leaves behind is still alike in the BA. -/
theorem AlikeBa.after_etd {i : Instr} {s s' t : State} (h : AlikeBa s s') (hu : i.unit = .etd)
    (hexec : exec i s = .next t) : AlikeBa t s' := by
  obtain ⟨hba, hout, hhost⟩ := exec_etd_frame hu hexec
  exact ⟨⟨h.ba.baBuf.trans hba.baBuf.symm, h.ba.baGrpStart.trans hba.baGrpStart.symm⟩,
    h.hasBA.trans hhost.hasBA.symm, h.baOut.trans hout.symm⟩

theorem exec_etd_alike {i : Instr} {s s' t : State} (hu : i.unit = .etd) (h : AlikeEtd s s')
    (hexec : exec i s = .next t) : ∃ t', exec i s' = .next t' ∧ AlikeEtd t t' := by
  have hexec' := exec_etd_assemble hu hexec s' s'
  rw [assemble_of_sameEtd h.etd h.etdOut] at hexec'
  exact ⟨_, hexec', sameEtd_assemble t s' s', rfl⟩

theorem exec_ba_alike {i : Instr} {s s' t : State} (hu : i.unit = .ba) (h : AlikeBa s s')
    (hexec : exec i s = .next t) : ∃ t', exec i s' = .next t' ∧ AlikeBa t t' := by
  have hexec' := exec_ba_assemble hu hexec s' s'
  rw [assemble_of_sameBa h.ba h.hasBA h.baOut] at hexec'
  exact ⟨_, hexec', sameBa_assemble s' t s', rfl, rfl⟩

/-- The ETD operations of a run, alone and from a state alike in the ETD, end alike in the ETD. -/
theorem execAll_filter_etd {ops : List Instr} {s s' t : State} (halike : AlikeEtd s s')
    (h : execAll ops s = .next t) :
    ∃ u, execAll (ops.filter fun i => i.unit = .etd) s' = .next u ∧ AlikeEtd t u := by
  induction ops generalizing s s' with
  | nil => cases h; exact ⟨s', rfl, halike⟩
  | cons i ops ih =>
    obtain ⟨s₁, hexec, h⟩ := execAll_cons_next h
    cases hu : i.unit with
    | etd =>
      obtain ⟨s₁', hexec', halike'⟩ := exec_etd_alike hu halike hexec
      obtain ⟨u, hrun, hu'⟩ := ih halike' h
      refine ⟨u, ?_, hu'⟩
      rw [List.filter_cons_of_pos (by simp [hu]), execAll_cons _ hexec', hrun]
    | ba =>
      rw [List.filter_cons_of_neg (by simp [hu])]
      exact ih (halike.after_ba hu hexec) h

/-- The BA operations of a run, alone and from a state alike in the BA, end alike in the BA. -/
theorem execAll_filter_ba {ops : List Instr} {s s' t : State} (halike : AlikeBa s s')
    (h : execAll ops s = .next t) :
    ∃ u, execAll (ops.filter fun i => i.unit = .ba) s' = .next u ∧ AlikeBa t u := by
  induction ops generalizing s s' with
  | nil => cases h; exact ⟨s', rfl, halike⟩
  | cons i ops ih =>
    obtain ⟨s₁, hexec, h⟩ := execAll_cons_next h
    cases hu : i.unit with
    | etd =>
      rw [List.filter_cons_of_neg (by simp [hu])]
      exact ih (halike.after_etd hu hexec) h
    | ba =>
      obtain ⟨s₁', hexec', halike'⟩ := exec_ba_alike hu halike hexec
      obtain ⟨u, hrun, hu'⟩ := ih halike' h
      refine ⟨u, ?_, hu'⟩
      rw [List.filter_cons_of_pos (by simp [hu]), execAll_cons _ hexec', hrun]

end Sys2Proof.Machine
end

section
/-! PROOF. The statement about interleavings. -/

namespace Sys2Proof.Machine

/-- Settles O38: both shorter runs start alike, and an operation of the other unit keeps a run alike to the one that
leaves it out. The order of the list is not needed. -/
theorem interleavingDoesNotMatter : Obligations.InterleavingDoesNotMatter := by
  intro ops s t _ h
  obtain ⟨u, hrun_etd, hetd⟩ := execAll_filter_etd (.refl s) h
  obtain ⟨v, hrun_ba, hba⟩ := execAll_filter_ba (.refl s) h
  exact ⟨u, v, hrun_etd, hetd.etd, hetd.etdOut, hrun_ba, hba.ba, hba.baOut⟩

end Sys2Proof.Machine
end

section
/-! SUPPORT. What every step keeps of the ETD: R23's invariants and the order of the indices held. -/

namespace Sys2Proof.Machine

/-! ### At the beginning of a session -/

theorem State.EtdAtReset.etdInv {s : State} (h : s.EtdAtReset) : EtdInv s := by
  constructor <;> simp [h.acc, h.riseIdx, h.fallIdx, h.inReset, h.fault]

theorem State.EtdAtReset.orderInv {s : State} (h : s.EtdAtReset) : OrderInv s := by
  constructor <;> simp [h.acc, h.riseIdx, h.fallIdx, h.pktIdx]

theorem State.BaAtReset.baInv {s : State} (h : s.BaAtReset) : BaInv s := by
  constructor <;> simp [h.baBuf]

/-! ### Operations that do not touch the registers concerned -/

theorem EtdInv.of_sameEtd {s t : State} (h : EtdInv s) (hsame : SameEtd s t) : EtdInv t := by
  constructor
  · rw [hsame.acc]; exact h.accShort
  · rw [hsame.riseIdx, hsame.pktIdx]; exact h.risePkt
  · rw [hsame.acc, hsame.riseIdx]; exact h.accRise
  · rw [hsame.riseIdx, hsame.prev]; exact h.risePrev
  · rw [hsame.fallIdx, hsame.prev]; exact h.fallPrev
  · rw [hsame.inReset, hsame.fallIdx]; exact h.resetFall
  · rw [hsame.fault]; exact h.faultLegal

theorem OrderInv.of_sameEtd {s t : State} (h : OrderInv s) (hsame : SameEtd s t) (hlast : t.lastIdx = s.lastIdx) :
    OrderInv t := by
  constructor
  · rw [hsame.pktIdx, hlast]; exact h.pktLast
  · rw [hsame.riseIdx, hlast]; exact h.riseLast
  · rw [hsame.fallIdx, hlast]; exact h.fallLast
  · rw [hsame.pktIdx, hsame.riseIdx]; exact h.pktRise
  · rw [hsame.riseIdx, hsame.prev, hsame.fallIdx]; exact h.fallenBit
  · rw [hsame.riseIdx, hsame.prev, hsame.fallIdx]; exact h.highBit
  · rw [hsame.acc, hsame.pktIdx, hsame.fallIdx]; exact h.pktFall

theorem BaInv.of_sameBa {s t : State} (h : BaInv s) (hsame : SameBa s t) : BaInv t := by
  constructor
  · rw [hsame.baBuf]; exact h.bufShort
  · rw [hsame.baBuf, hsame.baGrpStart]; exact h.bufGroup

/-! ### The order of the input (R147) -/

/-- Every index held is that of an earlier SAMPLE of the session, so a SAMPLE in order lies after all of them. -/
theorem OrderInv.precedes {s : State} (h : OrderInv s) {idx : Nat} {lvl : Bool}
    (ho : inOrder (.sample idx lvl) s.lastIdx = true) : s.Precedes idx := by
  have hlt (n : Nat) (hn : ∃ l, s.lastIdx = some l ∧ n ≤ l) : n < idx := by
    obtain ⟨l, hl, hle⟩ := hn
    have hlast : l < idx := by simpa [inOrder, hl] using ho
    omega
  exact ⟨fun p hp => hlt p (h.pktLast p hp), fun r hr => hlt r (h.riseLast r hr),
    fun f hf => hlt f (h.fallLast f hf)⟩

/-- Taking a SAMPLE in order moves the session's last index past every index held. -/
theorem OrderInv.takeSample {s : State} (h : OrderInv s) {idx : Nat} (hprec : s.Precedes idx) (lvl : Bool)
    (rest : List HostItem) : OrderInv (takeOp (.sample idx lvl) rest s) :=
  { h with
    pktLast := fun p hp => ⟨idx, rfl, (hprec.pkt p hp).le⟩
    riseLast := fun r hr => ⟨idx, rfl, (hprec.rise r hr).le⟩
    fallLast := fun f hf => ⟨idx, rfl, (hprec.fall f hf).le⟩ }

/-! ### The first SAMPLE -/

theorem EtdInv.firstSample {s : State} (hinv : EtdInv s) (lvl : Bool) : EtdInv { s with prev := some lvl } :=
  { hinv with risePrev := fun _ => rfl, fallPrev := fun _ => rfl }

/-- No bit is pending before the first SAMPLE, so its level puts nothing in order. -/
theorem OrderInv.firstSample {s : State} (h : OrderInv s) (hinv : EtdInv s) (hp : s.prev = none) (lvl : Bool) :
    OrderInv { s with prev := some lvl } :=
  have hr : s.riseIdx = none := by simpa [hp] using hinv.risePrev
  { h with
    fallenBit := fun _ hr' => nomatch hr.symm.trans hr'
    highBit := fun _ _ hr' => nomatch hr.symm.trans hr' }

/-! ### A fault -/

theorem EtdInv.latchFault {s : State} (hinv : EtdInv s) {code : BitVec 2} (h : code ≠ 3#2) :
    EtdInv (latchFault code s) := { hinv with faultLegal := h }

/-! ### The RESET path -/

theorem resetPath_etdInv {s : State} {rise fall : Nat} (hinv : EtdInv s) (hf : s.fallIdx = some fall) (idx : Nat) :
    EtdInv (resetPath rise fall idx s) := by
  rw [resetPath_eq]
  exact ⟨Nat.zero_le 23, nofun, fun hne => absurd rfl hne, nofun, hinv.fallPrev, fun _ => by simp [hf],
    hinv.faultLegal⟩

/-- The RESET path leaves one index, `fall_idx`, which it does not move. -/
theorem resetPath_orderInv {s : State} (h : OrderInv s) (rise fall idx : Nat) :
    OrderInv (resetPath rise fall idx s) := by
  rw [resetPath_eq]
  exact ⟨nofun, nofun, h.fallLast, nofun, nofun, nofun, nofun⟩

theorem resetPath_precedes {s : State} {idx : Nat} (h : s.Precedes idx) (rise fall : Nat) :
    (resetPath rise fall idx s).Precedes idx := by
  rw [resetPath_eq]
  exact ⟨nofun, nofun, h.fall⟩

/-! ### The edges -/

/-- A decided bit goes into the accumulator, or with 23 others into a pixel, which also takes the packet start. -/
theorem decidePending_packet (idx : Nat) (s : State) :
    ((decidePending idx s).acc = [] ∧ (decidePending idx s).pktIdx = none) ∨
    ((decidePending idx s).pktIdx = s.pktIdx ∧
      ((decidePending idx s).acc = s.acc ∨
        (∃ b, (decidePending idx s).acc = s.acc ++ [b]) ∧ s.acc.length ≠ 23 ∧ s.riseIdx.isSome)) := by
  cases hr : s.riseIdx with
  | none => rw [decidePending_none (.inl hr)]; exact .inr ⟨rfl, .inl rfl⟩
  | some rise =>
    cases hf : s.fallIdx with
    | none => rw [decidePending_none (.inr hf)]; exact .inr ⟨rfl, .inl rfl⟩
    | some fall =>
      rw [decidePending_some hr hf]
      by_cases hlen : s.acc.length = 23
      · simp [hlen]
      · simp [hlen]

theorem decidePending_accShort {s : State} (h : s.acc.length ≤ 23) (idx : Nat) :
    (decidePending idx s).acc.length ≤ 23 := by
  obtain ⟨hacc, -⟩ | ⟨-, hacc | ⟨⟨b, hacc⟩, hlen, -⟩⟩ := decidePending_packet idx s
  · simp [hacc]
  · rwa [hacc]
  · simp only [hacc, List.length_append, List.length_singleton]; omega

/-- Bits that stay in the accumulator keep the packet start they have, which a bit start has set. -/
theorem decidePending_acc_nonempty {s : State} (hinv : EtdInv s) {idx : Nat} (h : (decidePending idx s).acc ≠ []) :
    ∃ rise pkt, s.riseIdx = some rise ∧ s.pktIdx = some pkt ∧ (decidePending idx s).pktIdx = some pkt := by
  obtain ⟨hacc, -⟩ | ⟨hpkt, hacc⟩ := decidePending_packet idx s
  · exact absurd hacc h
  · have hrise : s.riseIdx.isSome := by
      obtain hacc | ⟨-, -, hrise⟩ := hacc
      · exact hinv.accRise (hacc ▸ h)
      · exact hrise
    obtain ⟨rise, hr⟩ := Option.isSome_iff_exists.mp hrise
    obtain ⟨pkt, hpkt'⟩ := Option.isSome_iff_exists.mp (hinv.risePkt hrise)
    exact ⟨rise, pkt, hr, hpkt', hpkt.trans hpkt'⟩

theorem edgeSteps_prev (prev lvl : Bool) (idx : Nat) (s : State) : (edgeSteps prev lvl idx s).prev = some lvl := rfl

theorem edgeSteps_etdInv {s : State} (hinv : EtdInv s) (prev lvl : Bool) (idx : Nat) :
    EtdInv (edgeSteps prev lvl idx s) where
  accShort := by
    cases prev <;> cases lvl
    case false.true => exact decidePending_accShort hinv.accShort idx
    all_goals exact hinv.accShort
  risePkt := edgeSteps_packetStarted hinv.risePkt prev lvl idx
  accRise := by
    cases prev <;> cases lvl
    case false.true => exact fun _ => rfl
    all_goals exact hinv.accRise
  risePrev := fun _ => rfl
  fallPrev := fun _ => rfl
  resetFall := by
    obtain ⟨-, -, hfall, -⟩ | ⟨hfall, hreset⟩ := edgeSteps_pulseEnd prev lvl idx s
    · simp [hfall]
    · rw [hfall, hreset]; exact hinv.resetFall
  faultLegal := by rw [edgeSteps_fault]; exact hinv.faultLegal

section
variable {s : State} {idx : Nat} (h : OrderInv s) (hprec : s.Precedes idx) (hlast : s.lastIdx = some idx)
include h hprec hlast

/-- A rising edge moves the bit start to the present index. The bits that stay were begun before the bit start that is
pending, whose pulse has ended. -/
theorem edgeSteps_rising_orderInv (hinv : EtdInv s) (hp : s.prev = some false) :
    OrderInv (edgeSteps false true idx s) := by
  have hfall : (edgeSteps false true idx s).fallIdx = s.fallIdx := (decidePending_pulseEnd idx s).1
  have hlast' : (edgeSteps false true idx s).lastIdx = some idx :=
    (edgeSteps_frame false true idx s).host.lastIdx.trans hlast
  have hpkt (p : Nat) (hp' : (edgeSteps false true idx s).pktIdx = some p) : p ≤ idx := by
    obtain rfl : (decidePending idx s).pktIdx.getD idx = p := Option.some.inj hp'
    obtain ⟨-, hnone⟩ | ⟨hsame, -⟩ := decidePending_packet idx s
    · rw [hnone]; exact le_refl idx
    · rw [hsame]
      cases hs : s.pktIdx with
      | none => exact le_refl idx
      | some p => exact (hprec.pkt p hs).le
  have hrise (r : Nat) (hr : (edgeSteps false true idx s).riseIdx = some r) : r = idx := (Option.some.inj hr).symm
  refine ⟨fun p hp' => ⟨idx, hlast', hpkt p hp'⟩, fun r hr => ⟨idx, hlast', (hrise r hr).le⟩, fun f hf => ?_,
    fun p r hp' hr => (hrise r hr).symm ▸ hpkt p hp', nofun, fun r f hr _ hf => ?_, fun p f hacc hp' hf => ?_⟩
  · exact ⟨idx, hlast', (hprec.fall f (hfall ▸ hf)).le⟩
  · exact (hrise r hr).symm ▸ hprec.fall f (hfall ▸ hf)
  · obtain ⟨rise, pkt, hr, hpkt, hpkt'⟩ := decidePending_acc_nonempty hinv hacc
    obtain rfl : pkt = p := by simpa [edgeSteps_rising, hpkt'] using hp'
    obtain ⟨f', hf', hlt⟩ := h.fallenBit rise hr hp
    obtain rfl : f' = f := Option.some.inj (hf'.symm.trans (hfall ▸ hf))
    exact (h.pktRise pkt rise hpkt hr).trans_lt hlt

/-- A falling edge moves `fall_idx` to the present index, past every other. -/
theorem edgeSteps_falling_orderInv : OrderInv (edgeSteps true false idx s) :=
  { h with
    fallLast := fun _ hf => ⟨idx, hlast, (Option.some.inj hf).ge⟩
    fallenBit := fun r hr _ => ⟨idx, rfl, hprec.rise r hr⟩
    highBit := nofun
    pktFall := fun p _ _ hp hf => Option.some.inj hf ▸ hprec.pkt p hp }

theorem edgeSteps_orderInv (hinv : EtdInv s) {prev : Bool} (hp : s.prev = some prev) (lvl : Bool) :
    OrderInv (edgeSteps prev lvl idx s) := by
  cases prev <;> cases lvl
  case false.true => exact edgeSteps_rising_orderInv h hprec hlast hinv hp
  case true.false => exact edgeSteps_falling_orderInv h hprec hlast
  all_goals
    rw [edgeSteps_level, State.prev_update_self hp]
    exact h

end

/-! ### Operations -/

theorem execSample_etdInv {s t : State} {idx : Nat} {lvl : Bool} (hinv : EtdInv s)
    (hexec : execSample idx lvl s = .next t) : EtdInv t := by
  obtain ⟨-, rfl⟩ | ⟨-, -, rfl⟩ | ⟨-, hp, rfl⟩ | ⟨-, -, -, -, -, -, rfl⟩ |
    ⟨prev, rise, fall, -, -, hd, -, rfl⟩ | ⟨prev, -, -, -, rfl⟩ := execSample_cases hexec
  · exact hinv
  · exact hinv.latchFault (code := faultCfg) (by decide)
  · exact hinv.firstSample lvl
  · exact hinv.latchFault (code := faultNoBitStart) (by decide)
  · exact edgeSteps_etdInv (resetPath_etdInv hinv hd.fallEdge idx) prev lvl idx
  · exact edgeSteps_etdInv hinv prev lvl idx

theorem execSample_orderInv {s t : State} {idx : Nat} {lvl : Bool} (hinv : EtdInv s) (h : OrderInv s)
    (hprec : s.Precedes idx) (hlast : s.lastIdx = some idx) (hexec : execSample idx lvl s = .next t) :
    OrderInv t := by
  obtain ⟨-, rfl⟩ | ⟨-, -, rfl⟩ | ⟨-, hp, rfl⟩ | ⟨-, -, -, -, -, -, rfl⟩ |
    ⟨prev, rise, fall, -, hp, hd, -, rfl⟩ | ⟨prev, -, hp, -, rfl⟩ := execSample_cases hexec
  · exact h
  · exact { h with }
  · exact h.firstSample hinv hp lvl
  · exact { h with }
  · have hframe := resetPath_frame rise fall idx s
    have hp' : (resetPath rise fall idx s).prev = some prev := by rw [resetPath_eq]; exact hp
    exact edgeSteps_orderInv (resetPath_orderInv h rise fall idx) (resetPath_precedes hprec rise fall)
      (hframe.host.lastIdx.trans hlast) (resetPath_etdInv hinv hd.fallEdge idx) hp' lvl
  · exact edgeSteps_orderInv h hprec hlast hinv hp lvl

/-- The invariants of the ETD together: R23, and the order of its indices. -/
structure EtdOrdered (s : State) : Prop where
  etd   : EtdInv s
  order : OrderInv s

theorem State.EtdAtReset.ordered {s : State} (h : s.EtdAtReset) : EtdOrdered s := ⟨h.etdInv, h.orderInv⟩

theorem exec_ba_etdOrdered {i : Instr} {s t : State} (hexec : exec i s = .next t) (hu : i.unit = .ba)
    (h : EtdOrdered s) : EtdOrdered t := by
  obtain ⟨hsame, -, hhost⟩ := exec_ba_frame hu hexec
  exact ⟨h.etd.of_sameEtd hsame, h.order.of_sameEtd hsame hhost.lastIdx⟩

/-- An operation taken in order keeps the invariants of the ETD. -/
theorem exec_takeOp_etdOrdered {i : Instr} {s t : State} {rest : List HostItem} (h : EtdOrdered s)
    (ho : inOrder i s.lastIdx = true) (hexec : exec i (takeOp i rest s) = .next t) : EtdOrdered t := by
  cases i with
  | init => cases hexec; exact (initEtd_etdAtReset _).ordered
  | setrate rate => cases hexec; exact ⟨{ h.etd with }, { h.order with }⟩
  | sample idx lvl =>
    have hprec := h.order.precedes ho
    have hinv : EtdInv (takeOp (.sample idx lvl) rest s) := { h.etd with }
    exact ⟨execSample_etdInv hinv hexec,
      execSample_orderInv hinv (h.order.takeSample hprec lvl rest) { hprec with } rfl hexec⟩
  | bainit | txn => exact exec_ba_etdOrdered hexec rfl ⟨{ h.etd with }, { h.order with }⟩

theorem step_etdOrdered {s t : State} (h : EtdOrdered s) (hstep : step s = .next t) : EtdOrdered t := by
  obtain ⟨-, rfl⟩ | ⟨rest, -, rfl⟩ | ⟨b, rest, i, -, -, ho, hexec⟩ := step_cases hstep
  · exact h
  · exact (powerOnReset_etdAtReset _).ordered
  · exact exec_takeOp_etdOrdered h ho hexec

/-! ### The Byte-Assembler -/

/-- A group that is not full keeps its start, and a full one empties the buffer (R26). -/
theorem group_baInv {s : State} (h : BaInv s) (start stop : Nat) (byte : Byte) :
    BaInv (closeGroup stop (pushByte byte (openGroup start s))) := by
  rw [group_eq]
  split
  next => exact ⟨by simp, fun _ => rfl⟩
  next => exact ⟨by simp, fun hne => absurd rfl hne⟩
  next hnone htwo =>
    have hlen : s.baBuf.length ≠ 2 := fun hlen => by
      obtain ⟨x, y, hxy⟩ := List.length_eq_two.mp hlen
      exact htwo x y hxy
    have hshort := h.bufShort
    refine ⟨?_, fun _ => h.bufGroup hnone⟩
    simp only [List.length_append, List.length_singleton]
    omega

theorem exec_baInv {i : Instr} {s t : State} (h : BaInv s) (hexec : exec i s = .next t) : BaInv t := by
  cases i with
  | init | setrate | sample => exact h.of_sameBa (exec_etd_frame rfl hexec).1
  | bainit =>
    obtain ⟨-, rfl⟩ := execBainit_cases hexec
    exact (initBa_baAtReset s).baInv
  | txn start stop isData byte byte2 =>
    obtain ⟨-, ⟨-, rfl⟩ | ⟨-, rfl⟩⟩ := execTxn_cases (byte2 := byte2) hexec
    · exact h
    · exact group_baInv h start stop byte

theorem step_baInv {s t : State} (h : BaInv s) (hstep : step s = .next t) : BaInv t := by
  obtain ⟨-, rfl⟩ | ⟨rest, -, rfl⟩ | ⟨b, rest, i, -, -, -, hexec⟩ := step_cases hstep
  · exact h
  · exact (initBa_baAtReset _).baInv
  · exact exec_baInv (s := takeOp i rest s) { h with } hexec

end Sys2Proof.Machine
end

section
/-! PROOF. The statements about the invariant of the machine: it holds at reset and every step keeps it. -/

namespace Sys2Proof.Machine

/-- Settles O42, from the invariants of the two units. -/
theorem everyStepKeepsTheInvariant : Obligations.EveryStepKeepsTheInvariant := by
  intro s t hinv hstep
  obtain ⟨hetd, horder⟩ := step_etdOrdered ⟨hinv.etd, hinv.order⟩ hstep
  exact ⟨hetd, step_baInv hinv.ba hstep, horder⟩

/-- Settles O43: no register holds an index, a bit or a byte. -/
theorem invariantHoldsAtReset : Obligations.InvariantHoldsAtReset :=
  have hetd : State.reset.EtdAtReset := ⟨rfl, rfl, rfl, rfl, rfl, rfl, rfl, rfl⟩
  have hba : State.reset.BaAtReset := ⟨rfl, rfl⟩
  ⟨hetd.etdInv, hba.baInv, hetd.orderInv⟩

end Sys2Proof.Machine
end

section
/-! SUPPORT. The start indices of one session's records. For each kind of record the registers hold the index at which
the next record of that kind will start, and no step moves it back past a record emitted. -/

namespace Sys2Proof.Machine

/-! ### The records of one kind -/

theorem ofKind_append (k : RecKind) (rs qs : List Record) : ofKind k (rs ++ qs) = ofKind k rs ++ ofKind k qs :=
  List.filter_append rs qs

theorem ofKind_cons (k : RecKind) (r : Record) (rs : List Record) :
    ofKind k (r :: rs) = if r.kind = k then r :: ofKind k rs else ofKind k rs := by
  simp [ofKind, List.filter_cons]

theorem mem_ofKind {k : RecKind} {r : Record} {rs : List Record} : r ∈ ofKind k rs ↔ r ∈ rs ∧ r.kind = k := by
  simp [ofKind]

theorem pixelRecords_kind {b : Bool} {boundary pos : Nat} {s : State} :
    ∀ r ∈ pixelRecords b boundary pos s, r.kind = .rgb := by
  unfold pixelRecords
  split
  · exact List.forall_mem_singleton.mpr rfl
  · exact List.forall_mem_nil _

theorem ofKind_pixelRecords (k : RecKind) (b : Bool) (boundary pos : Nat) (s : State) :
    ofKind k (pixelRecords b boundary pos s) = if k = .rgb then pixelRecords b boundary pos s else [] := by
  unfold pixelRecords
  split <;> cases k <;> rfl

/-- By kind, what a rising edge emits: the bit decided, and the pixel it completes. -/
theorem ofKind_risingRecords (k : RecKind) (start stop : Nat) (b : Bool) (boundary pos : Nat) (s : State) :
    ofKind k (bitRecord start stop b :: pixelRecords b boundary pos s) =
      match k with
      | .bit => [bitRecord start stop b]
      | .reset => []
      | .rgb => pixelRecords b boundary pos s := by
  rw [ofKind_cons, ofKind_pixelRecords]
  cases k <;> rfl

/-- By kind, what a RESET marker emits. -/
theorem ofKind_markerRecords (k : RecKind) (start stop : Nat) (b : Bool) (boundary pos idx : Nat) (s : State) :
    ofKind k (pixelRecords b boundary pos s ++ [bitRecord start stop b, resetRecord stop idx]) =
      match k with
      | .bit => [bitRecord start stop b]
      | .reset => [resetRecord stop idx]
      | .rgb => pixelRecords b boundary pos s := by
  rw [ofKind_append, ofKind_pixelRecords]
  cases k
  · rfl
  · rfl
  · exact List.append_nil _

/-! ### Records spaced between two indices -/

/-- The least start index that a later record of the same kind may have (R33 points 1 to 3). -/
def Record.next (r : Record) : Nat :=
  match r.kind with
  | .bit => r.start + 1
  | .reset => r.start + 1
  | .rgb => r.stop

theorem Record.next_bit {r : Record} (h : r.kind = .bit) : r.next = r.start + 1 := by rw [Record.next, h]
theorem Record.next_reset {r : Record} (h : r.kind = .reset) : r.next = r.start + 1 := by rw [Record.next, h]
theorem Record.next_rgb {r : Record} (h : r.kind = .rgb) : r.next = r.stop := by rw [Record.next, h]

/-- The records `rs`, of one kind, start at `lo` or later, each makes room for the next, and the last for one that
starts at `hi`. -/
structure Spaced (lo : Nat) (rs : List Record) (hi : Nat) : Prop where
  le     : lo ≤ hi
  within : ∀ r ∈ rs, lo ≤ r.start ∧ r.start < r.next ∧ r.next ≤ hi
  apart  : rs.Pairwise fun a b => a.next ≤ b.start

theorem Spaced.nil {lo hi : Nat} (h : lo ≤ hi) : Spaced lo [] hi := ⟨h, nofun, .nil⟩

theorem Spaced.singleton {lo hi : Nat} {r : Record} (hlo : lo ≤ r.start) (hr : r.start < r.next)
    (hhi : r.next ≤ hi) : Spaced lo [r] hi :=
  ⟨hlo.trans (hr.le.trans hhi), List.forall_mem_singleton.mpr ⟨hlo, hr, hhi⟩, List.pairwise_singleton _ r⟩

theorem Spaced.mono {lo hi hi' : Nat} {rs : List Record} (h : Spaced lo rs hi) (hle : hi ≤ hi') :
    Spaced lo rs hi' := by
  refine ⟨h.le.trans hle, fun r hr => ?_, h.apart⟩
  obtain ⟨hlo, hr, hhi⟩ := h.within r hr
  exact ⟨hlo, hr, hhi.trans hle⟩

theorem Spaced.append {lo mid hi : Nat} {rs qs : List Record} (h : Spaced lo rs mid) (k : Spaced mid qs hi) :
    Spaced lo (rs ++ qs) hi := by
  refine ⟨h.le.trans k.le, List.forall_mem_append.mpr ⟨(h.mono k.le).within, fun r hr => ?_⟩,
    List.pairwise_append.mpr ⟨h.apart, k.apart, fun a ha b hb => ?_⟩⟩
  · obtain ⟨hlo, hr, hhi⟩ := k.within r hr
    exact ⟨h.le.trans hlo, hr, hhi⟩
  · obtain ⟨-, -, hmid⟩ := h.within a ha
    obtain ⟨hlo, -⟩ := k.within b hb
    exact hmid.trans hlo

/-- Of the one pixel that a bit can complete, between the packet start and what the assembly leaves of it. -/
theorem pixelRecords_spaced {s : State} {pkt boundary : Nat} (hpkt : s.pktIdx = some pkt)
    (h : s.acc ≠ [] → pkt < boundary) (b : Bool) (pos : Nat) :
    Spaced pkt (pixelRecords b boundary pos s) (if s.acc.length = 23 then boundary else pkt) := by
  rw [pixelRecords_eq hpkt]
  split
  · next hlen =>
    have hne : s.acc ≠ [] := fun hnil => by simp [hnil] at hlen
    exact .singleton (le_refl pkt) (h hne) (le_refl boundary)
  · exact .nil (le_refl pkt)

/-- All three clauses of R33, of the records of a session that are spaced kind by kind. -/
theorem StartsIncrease.of_spaced {rs : List Record} {lo hi : RecKind → Nat}
    (h : ∀ k, Spaced (lo k) (ofKind k rs) (hi k)) : StartsIncrease rs := by
  have hkind {k : RecKind} {a : Record} (ha : a ∈ ofKind k rs) : a.kind = k := (mem_ofKind.mp ha).2
  refine ⟨(h .bit).apart.imp_of_mem fun {a b} ha _ hle => ?_, (h .reset).apart.imp_of_mem fun {a b} ha _ hle => ?_,
    (h .rgb).apart.imp_of_mem fun {a b} ha _ hle => ?_⟩
  · exact (Record.next_bit (hkind ha)).ge.trans hle
  · exact (Record.next_reset (hkind ha)).ge.trans hle
  · obtain ⟨-, hlt, -⟩ := (h .rgb).within a ha
    exact ⟨hlt.trans_le hle, (Record.next_rgb (hkind ha)).ge.trans hle⟩

/-! ### Where the next record of a kind will start -/

/-- The start index of the next record of each kind, where `lo` is the least index the next SAMPLE may have: the
pending bit, the pulse end that no marker has answered, the open packet, or else an edge still to come. -/
def State.nextStart (s : State) (lo : Nat) : RecKind → Nat
  | .bit => s.riseIdx.getD lo
  | .reset => if s.inReset then lo else s.fallIdx.getD lo
  | .rgb => s.pktIdx.getD lo

theorem getD_mono (r : Option Nat) {lo hi : Nat} (h : lo ≤ hi) : r.getD lo ≤ r.getD hi := by
  cases r
  · exact h
  · exact le_refl _

theorem getD_le {r : Option Nat} {lo idx : Nat} (hr : ∀ n, r = some n → n < idx) (hlo : lo ≤ idx) :
    r.getD lo ≤ idx := by
  cases r with
  | none => exact hlo
  | some n => exact (hr n rfl).le

theorem State.nextStart_mono (s : State) {lo hi : Nat} (h : lo ≤ hi) (k : RecKind) :
    s.nextStart lo k ≤ s.nextStart hi k := by
  cases k
  case reset =>
    simp only [State.nextStart]
    split
    · exact h
    · exact getD_mono _ h
  all_goals exact getD_mono _ h

/-- No index held is later than a SAMPLE in order. -/
theorem State.Precedes.nextStart_le {s : State} {idx lo : Nat} (h : s.Precedes idx) (hlo : lo ≤ idx) (k : RecKind) :
    s.nextStart lo k ≤ idx := by
  cases k with
  | bit => exact getD_le h.rise hlo
  | reset =>
    simp only [State.nextStart]
    split
    · exact hlo
    · exact getD_le h.fall hlo
  | rgb => exact getD_le h.pkt hlo

/-! ### From one state of a session to a later one -/

/-- On the way from `s` to `t` the ETD appends records that, kind by kind, start where the next one was to start in `s`
or later, and leave room for the next one of `t`. The next SAMPLE has an index of at least `lo`, then of at least
`hi`. -/
def Advances (s : State) (lo : Nat) (t : State) (hi : Nat) : Prop :=
  ∃ rs, t.etdOut = s.etdOut ++ rs ∧ ∀ k, Spaced (s.nextStart lo k) (ofKind k rs) (t.nextStart hi k)

theorem Advances.silent {s t : State} {lo hi : Nat} (hout : t.etdOut = s.etdOut)
    (h : ∀ k, s.nextStart lo k ≤ t.nextStart hi k) : Advances s lo t hi :=
  ⟨[], by simpa using hout, fun k => .nil (h k)⟩

theorem Advances.of_sameEtd {s t : State} {lo hi : Nat} (hsame : SameEtd s t) (hout : t.etdOut = s.etdOut)
    (h : lo ≤ hi) : Advances s lo t hi := by
  refine .silent hout fun k => (s.nextStart_mono h k).trans_eq ?_
  cases k
  · simp only [State.nextStart, hsame.riseIdx]
  · simp only [State.nextStart, hsame.inReset, hsame.fallIdx]
  · simp only [State.nextStart, hsame.pktIdx]

theorem Advances.refl (s : State) (lo : Nat) : Advances s lo s lo := .silent rfl fun _ => le_refl _

theorem Advances.trans {s t u : State} {lo mid hi : Nat} (h : Advances s lo t mid) (k : Advances t mid u hi) :
    Advances s lo u hi := by
  obtain ⟨rs, ht, hrs⟩ := h
  obtain ⟨qs, hu, hqs⟩ := k
  refine ⟨rs ++ qs, by rw [hu, ht, List.append_assoc], fun k => ?_⟩
  rw [ofKind_append]
  exact (hrs k).append (hqs k)

/-! ### One SAMPLE -/

section
variable {s : State} {idx : Nat} (hinv : EtdInv s) (hprec : s.Precedes idx)
include hinv hprec

/-- The marker emits what was pending of each kind and leaves nothing pending. -/
theorem resetPath_advances (h : OrderInv s) (lo : Nat) {rise fall : Nat} {lvl : Bool} (hd : s.ResetDue idx lvl fall)
    (hr : s.riseIdx = some rise) : Advances s lo (resetPath rise fall idx s) idx := by
  obtain ⟨pkt, hpkt⟩ := Option.isSome_iff_exists.mp (hinv.risePkt (by simp [hr]))
  have hrise := hprec.rise rise hr
  have hfall := hprec.fall fall hd.fallEdge
  rw [resetPath_eq]
  refine ⟨_, rfl, fun k => ?_⟩
  rw [ofKind_markerRecords]
  cases k with
  | bit => exact .singleton (by simp [State.nextStart, hr, bitRecord]) (Nat.lt_succ_self rise) hrise
  | reset =>
    exact .singleton (by simp [State.nextStart, hd.notYet, hd.fallEdge, resetRecord]) (Nat.lt_succ_self fall) hfall
  | rgb =>
    simp only [State.nextStart, hpkt, Option.getD_some]
    refine (pixelRecords_spaced hpkt (fun hne => h.pktFall pkt fall hne hpkt hd.fallEdge) _ _).mono ?_
    split
    · exact hfall.le
    · exact (hprec.pkt pkt hpkt).le

/-- A rising edge that decides a bit: the next bit, and after a pixel the next packet, start here. -/
theorem edgeSteps_rising_advances {lo : Nat} (hlo : lo ≤ idx) {rise fall : Nat} (hr : s.riseIdx = some rise)
    (hf : s.fallIdx = some fall) : Advances s lo (edgeSteps false true idx s) (idx + 1) := by
  obtain ⟨pkt, hpkt⟩ := Option.isSome_iff_exists.mp (hinv.risePkt (by simp [hr]))
  have hlt := hprec.pkt pkt hpkt
  rw [edgeSteps_rising, decidePending_some hr hf]
  refine ⟨_, rfl, fun k => ?_⟩
  rw [ofKind_risingRecords]
  cases k with
  | bit =>
    exact .singleton (by simp [State.nextStart, hr, bitRecord]) (Nat.lt_succ_self rise) (hprec.rise rise hr)
  | reset => exact .nil (s.nextStart_mono (Nat.le_succ_of_le hlo) .reset)
  | rgb =>
    simp only [State.nextStart, hpkt, Option.getD_some, startBit_pktIdx]
    refine (pixelRecords_spaced hpkt (fun _ => hlt) _ _).mono ?_
    split
    · exact le_refl idx
    · exact le_refl pkt

theorem edgeSteps_advances {lo : Nat} (hlo : lo ≤ idx) {prev : Bool} (hp : s.prev = some prev) (lvl : Bool) :
    Advances s lo (edgeSteps prev lvl idx s) (idx + 1) := by
  have hlo' : lo ≤ idx + 1 := Nat.le_succ_of_le hlo
  have hle := hprec.nextStart_le hlo
  cases prev <;> cases lvl
  case false.true =>
    by_cases hnone : s.riseIdx = none ∨ s.fallIdx = none
    case pos =>
      rw [edgeSteps_rising, decidePending_none hnone]
      refine .silent rfl fun k => ?_
      cases k
      · exact hle .bit
      · exact s.nextStart_mono hlo' .reset
      · exact getD_mono s.pktIdx hlo
    case neg =>
      obtain ⟨hr, hf⟩ := not_or.mp hnone
      obtain ⟨rise, hr⟩ := Option.ne_none_iff_exists'.mp hr
      obtain ⟨fall, hf⟩ := Option.ne_none_iff_exists'.mp hf
      exact edgeSteps_rising_advances hinv hprec hlo hr hf
  case true.false =>
    refine .silent rfl fun k => ?_
    cases k
    · exact s.nextStart_mono hlo' .bit
    · exact hle .reset
    · exact s.nextStart_mono hlo' .rgb
  all_goals
    rw [edgeSteps_level, State.prev_update_self hp]
    exact .silent rfl (s.nextStart_mono hlo')

theorem execSample_advances (h : OrderInv s) {lo : Nat} (hlo : lo ≤ idx) {t : State} {lvl : Bool}
    (hexec : execSample idx lvl s = .next t) : Advances s lo t (idx + 1) := by
  have hlo' : lo ≤ idx + 1 := Nat.le_succ_of_le hlo
  obtain ⟨-, rfl⟩ | ⟨-, -, rfl⟩ | ⟨-, -, rfl⟩ | ⟨-, -, -, -, -, -, rfl⟩ |
    ⟨prev, rise, fall, -, hp, hd, hr, rfl⟩ | ⟨prev, -, hp, -, rfl⟩ := execSample_cases hexec
  case inr.inr.inr.inr.inl =>
    have hp' : (resetPath rise fall idx s).prev = some prev := by rw [resetPath_eq]; exact hp
    exact (resetPath_advances hinv hprec h lo hd hr).trans
      (edgeSteps_advances (resetPath_etdInv hinv hd.fallEdge idx) (resetPath_precedes hprec rise fall)
        (le_refl idx) hp' lvl)
  case inr.inr.inr.inr.inr => exact edgeSteps_advances hinv hprec hlo hp lvl
  all_goals exact .silent rfl (State.nextStart_mono _ hlo')

end

/-! ### A run -/

/-- The least index the session's next SAMPLE may have (R147). -/
def State.nextIdx (s : State) : Nat := s.lastIdx.elim 0 (· + 1)

theorem State.nextIdx_le {s : State} {idx : Nat} {lvl : Bool} (h : inOrder (.sample idx lvl) s.lastIdx = true) :
    s.nextIdx ≤ idx := by
  unfold State.nextIdx
  cases hl : s.lastIdx with
  | none => exact Nat.zero_le idx
  | some l => simpa [inOrder, hl] using h

theorem exec_host {i : Instr} {s t : State} (h : exec i s = .next t) : SameHost s t := by
  cases hu : i.unit with
  | etd => exact (exec_etd_frame hu h).2.2
  | ba => exact (exec_ba_frame hu h).2.2

/-- An operation of a session, taken in order, advances it. -/
theorem exec_takeOp_advances {i : Instr} {s t : State} {rest : List HostItem} (hs : EtdOrdered s) (hi : i ≠ .init)
    (ho : inOrder i s.lastIdx = true) (hexec : exec i (takeOp i rest s) = .next t) :
    Advances s s.nextIdx t t.nextIdx := by
  have hlast := (exec_host hexec).lastIdx
  cases i with
  | init => exact absurd rfl hi
  | setrate rate => cases hexec; exact .refl s s.nextIdx
  | sample idx lvl =>
    have hnext : t.nextIdx = idx + 1 := by rw [State.nextIdx, hlast]; rfl
    have hprec := hs.order.precedes ho
    rw [hnext]
    exact execSample_advances (s := takeOp (.sample idx lvl) rest s) { hs.etd with } { hprec with }
      (hs.order.takeSample hprec lvl rest) (State.nextIdx_le ho) hexec
  | bainit | txn =>
    obtain ⟨hsame, hout, -⟩ := exec_ba_frame rfl hexec
    exact .of_sameEtd { hsame with } hout (by rw [State.nextIdx, State.nextIdx, hlast]; rfl)

/-- A step within a session advances it, and leaves no item that was not there to take. -/
theorem step_advances {s t : State} (hs : EtdOrdered s) (hin : ∀ x ∈ s.input, x.beginsSession = false)
    (h : step s = .next t) : Advances s s.nextIdx t t.nextIdx ∧ ∀ x ∈ t.input, x.beginsSession = false := by
  obtain ⟨-, rfl⟩ | ⟨rest, hi, -⟩ | ⟨b, rest, i, hi, hd, ho, hexec⟩ := step_cases h
  · exact ⟨.refl _ _, hin⟩
  · exact absurd (hin .powerOn (by simp [hi])) (by decide)
  · rw [hi, List.forall_mem_cons] at hin
    obtain ⟨hb, hrest⟩ := hin
    have hinit : i ≠ .init := by
      rintro rfl
      have hbegins := (beginsSession_cmd_iff b).mpr (decode_wellFormed_opcode hd).2.symm
      simp [hb] at hbegins
    exact ⟨exec_takeOp_advances hs hinit ho hexec, (exec_host hexec).input ▸ hrest⟩

theorem runSteps_succ_next {k : Nat} {s t : State} (h : runSteps (k + 1) s = .next t) :
    ∃ u, step s = .next u ∧ runSteps k u = .next t := by
  rw [runSteps] at h
  split at h
  · next u hstep => exact ⟨u, hstep, h⟩
  · cases h
  · cases h

theorem runSteps_advances {k : Nat} {s t : State} (hs : EtdOrdered s)
    (hin : ∀ x ∈ s.input, x.beginsSession = false) (h : runSteps k s = .next t) :
    Advances s s.nextIdx t t.nextIdx := by
  induction k generalizing s with
  | zero => cases h; exact .refl _ _
  | succ k ih =>
    obtain ⟨u, hstep, hrun⟩ := runSteps_succ_next h
    obtain ⟨hadv, hin'⟩ := step_advances hs hin hstep
    exact hadv.trans (ih (step_etdOrdered hs hstep) hin' hrun)

end Sys2Proof.Machine
end

section
/-! PROOF. The statement about the start indices of one session. -/

namespace Sys2Proof.Machine

/-- Settles O44: every step moves the place where the next record of a kind starts forward, past the records it emits,
and that is kept under composition. -/
theorem startIndicesIncreaseWithinSession : Obligations.StartIndicesIncreaseWithinSession := by
  intro s t k hreset _ hin hrun
  obtain ⟨rs, hout, hspaced⟩ := runSteps_advances hreset.ordered hin hrun
  rw [newEtd_of_append hout]
  exact .of_spaced hspaced

end Sys2Proof.Machine
end

section
/-! SUPPORT. What one SAMPLE emits, and what it does to the accumulator. -/

namespace Sys2Proof.Machine

/-- A SAMPLE from `s` to `t` emits nothing, or the bit that a rising edge decides, or a RESET marker, each bit with the
pixel it completes. -/
inductive SampleEmits (s : State) (idx : Nat) (lvl : Bool) (t : State) : Prop where
  | silent (out : t.etdOut = s.etdOut) (acc : t.acc = s.acc)
      (undecided : s.Running → s.prev = some false → lvl = true → s.riseIdx = none ∨ s.fallIdx = none)
  | rising (rise fall : Nat) (b : Bool) (prev : s.prev = some false) (high : lvl = true)
      (riseIdx : s.riseIdx = some rise) (fallIdx : s.fallIdx = some fall)
      (out : t.etdOut = s.etdOut ++ bitRecord rise idx b :: pixelRecords b idx (s.etdOut.length + 1) s)
      (acc : t.acc = if s.acc.length = 23 then [] else s.acc ++ [b])
  | marker (rise fall : Nat) (b : Bool) (prev : s.prev ≠ none) (due : s.ResetDue idx lvl fall)
      (riseIdx : s.riseIdx = some rise) (bit : b = highTimeBit (indexDiff fall rise) s.samplerate)
      (out : t.etdOut = s.etdOut ++
        (pixelRecords b fall s.etdOut.length s ++ [bitRecord rise fall b, resetRecord fall idx]))
      (acc : t.acc = [])

theorem edgeSteps_low_acc (prev : Bool) (idx : Nat) (s : State) : (edgeSteps prev false idx s).acc = s.acc := by
  cases prev <;> rfl

/-- Of the edge steps only a rising edge with both indices valid emits. -/
theorem edgeSteps_emits {s : State} {prev : Bool} (hp : s.prev = some prev) (lvl : Bool) (idx : Nat) :
    SampleEmits s idx lvl (edgeSteps prev lvl idx s) := by
  cases lvl with
  | false => exact .silent (edgeSteps_low_etdOut prev idx s) (edgeSteps_low_acc prev idx s) nofun
  | true =>
    cases prev with
    | true => exact .silent rfl rfl fun _ hp' => nomatch hp.symm.trans hp'
    | false =>
      rw [edgeSteps_rising]
      by_cases hnone : s.riseIdx = none ∨ s.fallIdx = none
      case pos =>
        rw [decidePending_none hnone]
        exact .silent rfl rfl fun _ _ _ => hnone
      case neg =>
        obtain ⟨hr, hf⟩ := not_or.mp hnone
        obtain ⟨rise, hr⟩ := Option.ne_none_iff_exists'.mp hr
        obtain ⟨fall, hf⟩ := Option.ne_none_iff_exists'.mp hf
        rw [decidePending_some hr hf]
        exact .rising rise fall _ hp rfl hr hf rfl rfl

theorem execSample_emits {s t : State} {idx : Nat} {lvl : Bool} (h : execSample idx lvl s = .next t) :
    SampleEmits s idx lvl t := by
  obtain ⟨hf, rfl⟩ | ⟨-, hrate, rfl⟩ | ⟨-, hp, rfl⟩ | ⟨-, fall, -, -, hd, -, rfl⟩ |
    ⟨prev, rise, fall, -, hp, hd, hr, rfl⟩ | ⟨prev, -, hp, -, rfl⟩ := execSample_cases h
  · exact .silent rfl rfl fun hrun => absurd hrun.1 hf
  · exact .silent rfl rfl fun hrun => absurd hrate hrun.2
  · exact .silent rfl rfl fun _ hp' => nomatch hp.symm.trans hp'
  · exact .silent rfl rfl fun _ _ hhigh => nomatch hd.low.symm.trans hhigh
  · obtain rfl := hd.low
    have hout := edgeSteps_low_etdOut prev idx (resetPath rise fall idx s)
    have hacc := edgeSteps_low_acc prev idx (resetPath rise fall idx s)
    rw [resetPath_eq rise fall idx s] at hout hacc ⊢
    exact .marker rise fall _ (by simp [hp]) hd hr rfl hout hacc
  · exact edgeSteps_emits hp lvl idx

/-! ### The completed pixel among the records -/

theorem pixelRecords_kinds (b : Bool) (boundary pos : Nat) (s : State) :
    (pixelRecords b boundary pos s).map (·.kind) = if s.acc.length = 23 then [.rgb] else [] := by
  unfold pixelRecords
  split <;> rfl

theorem pixelRecords_length (b : Bool) (boundary pos : Nat) (s : State) :
    (pixelRecords b boundary pos s).length = if s.acc.length = 23 then 1 else 0 := by
  unfold pixelRecords
  split <;> rfl

/-- A pixel is longer than nothing where its packet start lies before the boundary. -/
theorem pixelRecords_forward {s : State} {pkt boundary : Nat} (hpkt : s.pktIdx = some pkt)
    (h : s.acc ≠ [] → pkt < boundary) (b : Bool) (pos : Nat) :
    ∀ r ∈ pixelRecords b boundary pos s, r.start < r.stop := by
  intro r hr
  obtain ⟨-, hlt, -⟩ := (pixelRecords_spaced hpkt h b pos).within r hr
  rwa [Record.next_rgb (pixelRecords_kind r hr)] at hlt

/-! ### A falling edge inside the RESET gap -/

/-- While the line is high the pending bit's rising edge lies after the last falling edge, so it would have had a
negative high time, which is a 0 (R82, R95 case 7). -/
theorem OrderInv.highTimeBit_of_high {s : State} (h : OrderInv s) {rise fall : Nat} (hp : s.prev = some true)
    (hr : s.riseIdx = some rise) (hf : s.fallIdx = some fall) :
    highTimeBit (indexDiff fall rise) s.samplerate = false := by
  have hlt := h.highBit rise fall hr hp hf
  exact highTimeBit_negative (by rw [indexDiff]; omega)

/-! ### NOBITSTART -/

/-- The RESET path is due and finds no bit start (R89). -/
def State.StartMissing (s : State) (idx : Nat) (lvl : Bool) : Prop :=
  s.prev ≠ none ∧ s.riseIdx = none ∧ ∃ fall, s.ResetDue idx lvl fall

theorem execSample_fault_of_running {s t : State} {idx : Nat} {lvl : Bool} (hrun : s.Running)
    (h : execSample idx lvl s = .next t) :
    (t.fault = faultNoBitStart ∧ s.StartMissing idx lvl) ∨ (t.fault = 0#2 ∧ ¬ s.StartMissing idx lvl) := by
  obtain ⟨hf, -⟩ | ⟨-, hrate, -⟩ | ⟨-, hp, rfl⟩ | ⟨prev, fall, -, hp, hd, hr, rfl⟩ |
    ⟨prev, rise, fall, -, -, -, hr, rfl⟩ | ⟨prev, -, -, hd, rfl⟩ := execSample_cases h
  · exact absurd hrun.1 hf
  · exact absurd hrate hrun.2
  · exact .inr ⟨hrun.1, fun ⟨hne, _⟩ => hne hp⟩
  · exact .inl ⟨rfl, by simp [hp], hr, fall, hd⟩
  · have hframe := (resetPath_frame rise fall idx s).trans (edgeSteps_frame prev lvl idx _)
    exact .inr ⟨hframe.fault.trans hrun.1, fun ⟨_, hnone, _⟩ => nomatch hr.symm.trans hnone⟩
  · exact .inr ⟨(edgeSteps_fault prev lvl idx s).trans hrun.1, fun ⟨_, _, fall, hdue⟩ => hd fall hdue⟩

/-! ### RESET records and the BIT records before them -/

theorem ResetsFollowBits.append {rs qs : List Record} (h : ResetsFollowBits rs) (k : ResetsFollowBits qs) :
    ResetsFollowBits (rs ++ qs) := by
  intro n r hn hkind
  obtain hlt | hle := Nat.lt_or_ge n rs.length
  · rw [List.getElem?_append_left hlt] at hn
    obtain ⟨j, b, rfl, hj, hb⟩ := h n r hn hkind
    exact ⟨j, b, rfl, by rw [List.getElem?_append_left (by omega), hj], hb⟩
  · rw [List.getElem?_append_right hle] at hn
    obtain ⟨j, b, hjn, hj, hb⟩ := k (n - rs.length) r hn hkind
    refine ⟨rs.length + j, b, by omega, ?_, hb⟩
    rw [List.getElem?_append_right (Nat.le_add_right _ _), Nat.add_sub_cancel_left, hj]

theorem resetsFollowBits_of_no_reset {rs : List Record} (h : ∀ r ∈ rs, r.kind ≠ .reset) : ResetsFollowBits rs :=
  fun _ r hr hkind => absurd hkind (h r (List.mem_of_getElem? hr))

theorem resetsFollowBits_marker (rise fall idx : Nat) (b : Bool) :
    ResetsFollowBits [bitRecord rise fall b, resetRecord fall idx] := by
  intro n r hn hkind
  match n with
  | 0 => cases hn; cases hkind
  | 1 => cases hn; exact ⟨0, bitRecord rise fall b, rfl, rfl, rfl, rfl⟩

theorem pixelRecords_resetsFollowBits (b : Bool) (boundary pos : Nat) (s : State) :
    ResetsFollowBits (pixelRecords b boundary pos s) :=
  resetsFollowBits_of_no_reset fun r hr => by simp [pixelRecords_kind r hr]

theorem resetsFollowBits_bit (start stop : Nat) (b : Bool) : ResetsFollowBits [bitRecord start stop b] :=
  resetsFollowBits_of_no_reset (List.forall_mem_singleton.mpr nofun)

theorem execSample_resetsFollowBits {s t : State} {idx : Nat} {lvl : Bool} (hs : ResetsFollowBits s.etdOut)
    (h : execSample idx lvl s = .next t) : ResetsFollowBits t.etdOut := by
  cases execSample_emits h with
  | silent out => rw [out]; exact hs
  | rising rise fall b _ _ _ _ out =>
    rw [out]
    exact hs.append ((resetsFollowBits_bit rise idx b).append (pixelRecords_resetsFollowBits b idx _ s))
  | marker rise fall b _ _ _ _ out =>
    rw [out]
    exact hs.append ((pixelRecords_resetsFollowBits b fall _ s).append (resetsFollowBits_marker rise fall idx b))

theorem exec_resetsFollowBits {i : Instr} {s t : State} (hs : ResetsFollowBits s.etdOut)
    (h : exec i s = .next t) : ResetsFollowBits t.etdOut := by
  cases i with
  | init | setrate => cases h; exact hs
  | sample idx lvl => exact execSample_resetsFollowBits hs h
  | bainit | txn =>
    obtain ⟨-, hout, -⟩ := exec_ba_frame rfl h
    rw [hout]
    exact hs

end Sys2Proof.Machine
end

section
/-! PROOF. The statements about what one SAMPLE emits and latches. -/

namespace Sys2Proof.Machine

/-- Settles O10: the gate, then the configuration check, then the paths of a running ETD. -/
theorem faultPriorityWithinSample : Obligations.FaultPriorityWithinSample := by
  intro s idx lvl _
  obtain ⟨t, h⟩ := execSample_accepts idx lvl s
  refine ⟨t, h, fun hf => ?latched, fun hf hrate => ?noRate, fun hrun => ?noBitStart, fun hrun => ?codes⟩
  case latched =>
    cases (execSample_aborted hf idx lvl).symm.trans h
    rfl
  case noRate =>
    cases (execSample_withoutRate hf hrate idx lvl).symm.trans h
    rfl
  case noBitStart =>
    obtain ⟨hf, hmissing⟩ | ⟨hf, hnone⟩ := execSample_fault_of_running hrun h
    · exact ⟨fun _ => hmissing, fun _ => hf⟩
    · exact ⟨fun hf' => absurd (hf.symm.trans hf') (by decide), fun hmissing => absurd hmissing hnone⟩
  case codes =>
    obtain ⟨hf, -⟩ | ⟨hf, -⟩ := execSample_fault_of_running hrun h
    · exact .inr hf
    · exact .inl hf

/-- Settles O20: the marker of a high line takes the pending bit for a 0, and the falling edge follows it. -/
theorem resetMarkerOnFallingEdgeReversesBit : Obligations.ResetMarkerOnFallingEdgeReversesBit := by
  intro s idx rise fall pkt hinv hprec hrun hp hd hr hpkt hlen
  have hbit : decide (((fall : Int) - rise) * 1000000000 ≥ 625 * (s.samplerate : Int)) = false :=
    (highTimeBit_eq_decide _ _).symm.trans (hinv.order.highTimeBit_of_high hp hr hd.fallEdge)
  refine ⟨hinv.order.highBit rise fall hr hp hd.fallEdge, ?_⟩
  simpa [hbit, hlen] using
    resetMarkerFinalizesPendingBit s idx rise fall pkt true false hprec hrun hp hd hr hpkt

/-- Settles O22: the sequences are those of a rising edge and of a marker, and a SAMPLE that latches a fault changes
nothing else. -/
theorem sampleEmitsOneOfFiveSequences : Obligations.SampleEmitsOneOfFiveSequences := by
  intro s t idx lvl hprec h
  have hfault (hne : t.fault ≠ 0#2) : t.etdOut = s.etdOut := by
    rw [(faultsArePrecise (.sample idx lvl) s t hprec h hne).2 ⟨idx, lvl, rfl⟩]
  cases execSample_emits h with
  | silent out _ undecided =>
    refine ⟨[], by simpa using out, .inl rfl, fun _ => rfl, fun _ => rfl, fun hp hhigh hrun hr hf => ?_⟩
    exact absurd (undecided hrun hp hhigh) (not_or.mpr ⟨hr, hf⟩)
  | rising rise fall b prev high _ _ out =>
    refine ⟨_, out, ?_, fun hne => ?_, fun hp => absurd (hp.symm.trans prev) nofun,
      fun _ _ _ _ _ => List.cons_ne_nil _ _⟩
    · rw [List.map_cons, pixelRecords_kinds]
      by_cases hlen : s.acc.length = 23
      · exact .inr (.inr (.inl ⟨by simp [hlen, bitRecord], prev, high, by omega⟩))
      · exact .inr (.inl ⟨by simp [hlen, bitRecord], prev, high, by omega⟩)
    · exact List.append_right_eq_self.mp (out.symm.trans (hfault hne))
  | marker rise fall b prev due _ _ out =>
    refine ⟨_, out, ?_, fun hne => ?_, fun hp => absurd hp prev, fun _ hhigh => nomatch due.low.symm.trans hhigh⟩
    · rw [List.map_append, pixelRecords_kinds]
      by_cases hlen : s.acc.length = 23
      · exact .inr (.inr (.inr (.inr ⟨by simp [hlen, bitRecord, resetRecord], ⟨fall, due⟩, by omega⟩)))
      · exact .inr (.inr (.inr (.inl ⟨by simp [hlen, bitRecord, resetRecord], ⟨fall, due⟩, by omega⟩)))
    · exact List.append_right_eq_self.mp (out.symm.trans (hfault hne))

/-- Settles O23: a rising edge appends its bit or takes 24 bits away with a pixel; a marker empties the accumulator,
which holds at most 23 bits. -/
theorem decidedBitsAreGroupedByTwentyFour : Obligations.DecidedBitsAreGroupedByTwentyFour := by
  intro s t idx lvl hinv _ h
  have hshort := hinv.accShort
  cases execSample_emits h with
  | silent out acc =>
    have hnew : newEtd s t = [] := newEtd_of_append (by simpa using out)
    simp [hnew, acc, ofKind]
  | rising rise fall b _ _ _ _ out acc =>
    simp only [newEtd_of_append out, ofKind_risingRecords, pixelRecords_length, acc]
    by_cases hlen : s.acc.length = 23 <;> simp [hlen]
  | marker rise fall b _ _ _ _ out acc =>
    simp only [newEtd_of_append out, ofKind_markerRecords, pixelRecords_length]
    refine ⟨nofun, fun _ => ⟨acc, ?_⟩⟩
    split <;> omega

/-- Settles O41, from what a SAMPLE emits, the one operation that emits RESET. -/
theorem resetRecordsFollowBitRecords : Obligations.ResetRecordsFollowBitRecords := by
  intro s t hs hstep
  obtain ⟨-, rfl⟩ | ⟨rest, -, rfl⟩ | ⟨b, rest, i, -, -, -, hexec⟩ := step_cases hstep
  · exact hs
  · exact hs
  · exact exec_resetsFollowBits (s := takeOp i rest s) hs hexec

/-- Settles O45: every start lies before its end but that of the bit a marker finalises, whose pulse has ended unless
the line is still high. -/
theorem onlyFallingEdgeMarkersReverseRecords : Obligations.OnlyFallingEdgeMarkersReverseRecords := by
  intro s t idx lvl hinv hprec h r hr hreversed
  cases execSample_emits h with
  | silent out =>
    have hnew : newEtd s t = [] := newEtd_of_append (by simpa using out)
    simp [hnew] at hr
  | rising rise fall b _ _ riseIdx _ out =>
    obtain ⟨pkt, hpkt⟩ := Option.isSome_iff_exists.mp (hinv.etd.risePkt (by simp [riseIdx]))
    have hforward : ∀ r ∈ newEtd s t, r.start < r.stop := by
      rw [newEtd_of_append out]
      exact List.forall_mem_cons.mpr ⟨hprec.rise rise riseIdx,
        pixelRecords_forward hpkt (fun _ => hprec.pkt pkt hpkt) b _⟩
    exact absurd (hforward r hr) (Nat.not_lt.mpr hreversed)
  | marker rise fall b prev due riseIdx bit out =>
    obtain ⟨pkt, hpkt⟩ := Option.isSome_iff_exists.mp (hinv.etd.risePkt (by simp [riseIdx]))
    rw [newEtd_of_append out, List.mem_append, List.mem_cons, List.mem_singleton] at hr
    obtain hr | rfl | rfl := hr
    · have hforward := pixelRecords_forward hpkt (fun hne => hinv.order.pktFall pkt fall hne hpkt due.fallEdge) b
        s.etdOut.length
      exact absurd (hforward r hr) (Nat.not_lt.mpr hreversed)
    · have hhigh : s.prev = some true := by
        obtain ⟨p, hp⟩ := Option.ne_none_iff_exists'.mp prev
        cases p with
        | true => exact hp
        | false =>
          obtain ⟨f, hf, hlt⟩ := hinv.order.fallenBit rise riseIdx hp
          obtain rfl : f = fall := Option.some.inj (hf.symm.trans due.fallEdge)
          exact absurd hlt (Nat.not_lt.mpr hreversed)
      have hzero : b = false := bit.trans (hinv.order.highTimeBit_of_high hhigh riseIdx due.fallEdge)
      exact ⟨rfl, by rw [hzero]; rfl, hhigh, due.low, fall, due⟩
    · exact absurd (hprec.fall fall due.fallEdge) (Nat.not_lt.mpr hreversed)

end Sys2Proof.Machine
end

section
/-! SUPPORT. A step that refuses the order of its input (R147). -/

namespace Sys2Proof.Machine

theorem inOrder_eq_false_iff (i : Instr) (lastIdx : Option Nat) :
    inOrder i lastIdx = false ↔ ∃ idx lvl last, i = .sample idx lvl ∧ lastIdx = some last ∧ idx ≤ last := by
  cases i with
  | sample idx lvl => cases lastIdx <;> simp [inOrder]
  | init | setrate | bainit | txn => simp [inOrder]

/-- The order of the input is checked before an operation runs, and by none of them. -/
theorem exec_ne_unordered (i : Instr) (s : State) : exec i s ≠ .refused .unorderedIndex := by
  cases hu : i.unit with
  | etd =>
    obtain ⟨t, hexec⟩ := exec_etd_accepts hu s
    simp [hexec]
  | ba =>
    cases hb : s.hasBA with
    | true =>
      obtain ⟨t, hexec⟩ := exec_ba_accepts hu hb
      simp [hexec]
    | false => simp [exec_ba_absent hu hb]

theorem step_refuses_unordered_iff {s : State} {b : Bundle} {rest : List HostItem} (hi : s.input = .cmd b :: rest) :
    step s = .refused .unorderedIndex ↔ ∃ i, decode b = .ok i ∧ inOrder i s.lastIdx = false := by
  cases hd : decode b with
  | error e => simp [step_reserved hi hd]
  | ok i =>
    cases ho : inOrder i s.lastIdx with
    | false => simp [step_unordered hi hd ho, ho]
    | true => simp [step_inOrder hi hd ho, exec_ne_unordered, ho]

end Sys2Proof.Machine
end

section
/-! PROOF. The statements about the step: what it runs, what it accepts, and the order it asks for. -/

namespace Sys2Proof.Machine

/-- Settles O55: only a SAMPLE has an index to be out of order. -/
theorem unorderedSamplesAreRefused : Obligations.UnorderedSamplesAreRefused := by
  intro s b rest hi
  rw [step_refuses_unordered_iff hi]
  constructor
  · rintro ⟨i, hd, ho⟩
    obtain ⟨idx, lvl, last, rfl, hlast, hle⟩ := (inOrder_eq_false_iff i s.lastIdx).mp ho
    have hop : b.op = 2#3 := (decode_wellFormed_opcode hd).2.symm
    rw [decode_sample hop] at hd
    cases hd
    exact ⟨hop, last, hlast, hle⟩
  · rintro ⟨hop, last, hlast, hle⟩
    exact ⟨_, decode_sample hop, (inOrder_eq_false_iff _ _).mpr ⟨_, _, last, rfl, hlast, hle⟩⟩

/-- Settles O52, unit by unit. -/
theorem everyOperationIsAccepted : Obligations.EveryOperationIsAccepted := by
  intro i s _ hba
  cases hu : i.unit with
  | etd => exact exec_etd_accepts hu s
  | ba => exact exec_ba_accepts hu (hba hu)

/-- Settles O53: the item taken and the index noted are `takeOp`. -/
theorem stepRunsDecodedOperation : Obligations.StepRunsDecodedOperation :=
  fun _ _ _ _ hi hd ho => step_inOrder hi hd ho

/-- Settles O56: the word's bundle is the host's first item, and with no index noted before it every operation is in
order. -/
theorem placedWordRunsNext : Obligations.PlacedWordRunsNext := by
  intro s nbits w i hw
  have hd : decode (Bundle.ofTableWord nbits w) = .ok i := by
    unfold decodeTableWord at hw
    split at hw
    · next j hj => exact hj.trans (congrArg Except.ok (Option.some.inj hw))
    · cases hw
  have ho : inOrder i none = true := by cases i <;> rfl
  exact step_inOrder (s := s.withFetchWord nbits w) rfl hd ho

end Sys2Proof.Machine
end
